-- ==== Sys2Proof/Word.lean ====
section
/-! DEFINITION. The word types of the CHIP-8 core: bytes, 16-bit words, 12-bit addresses and register numbers. -/

namespace Sys2Proof

/-- A memory cell, a general register or a timer: 8 bits (R31, R47, R70). -/
abbrev Byte := BitVec 8

/-- An opcode, the program counter, the index register, a stack entry or the key vector: 16 bits (R36, R44, R50, R57, R100). -/
abbrev Word := BitVec 16

/-- The `nnn` field of an opcode: 12 bits (R102). -/
abbrev Address := BitVec 12

/-- A register number, the `x` or `y` field of an opcode: 0 to 15 (R31). -/
abbrev Reg := Fin 16

/-- `VF`, the register that is also the flag (R41). -/
abbrev vf : Reg := 15

end Sys2Proof
end

