-- ==== Sys2Proof/Syntax.lean ====
section
/-! DEFINITION. The instructions of the core, one constructor per row of spec/opcode_table.json (34 defined instructions and the
no-op), and the opcode table of R106 as data. -/

namespace Sys2Proof

/-- The instructions (R106). Operands are the fields of R102; a register operand is a register number, `n` a row count. -/
inductive Instr where
  | cls
  | ret
  | jpNnn    (nnn : Address)
  | callNnn  (nnn : Address)
  | seVxNn   (x : Reg) (nn : Byte)
  | sneVxNn  (x : Reg) (nn : Byte)
  | seVxVy   (x y : Reg)
  | ldVxNn   (x : Reg) (nn : Byte)
  | addVxNn  (x : Reg) (nn : Byte)
  | ldVxVy   (x y : Reg)
  | orVxVy   (x y : Reg)
  | andVxVy  (x y : Reg)
  | xorVxVy  (x y : Reg)
  | addVxVy  (x y : Reg)
  | subVxVy  (x y : Reg)
  /-- `y` is decoded and ignored (R111). -/
  | shrVx    (x y : Reg)
  | subnVxVy (x y : Reg)
  /-- `y` is decoded and ignored (R111). -/
  | shlVx    (x y : Reg)
  | sneVxVy  (x y : Reg)
  | ldINnn   (nnn : Address)
  | jpV0Nnn  (nnn : Address)
  | rndVxNn  (x : Reg) (nn : Byte)
  | drwVxVyN (x y : Reg) (n : Fin 16)
  | skpVx    (x : Reg)
  | sknpVx   (x : Reg)
  | ldVxDt   (x : Reg)
  | ldVxK    (x : Reg)
  | ldDtVx   (x : Reg)
  | ldStVx   (x : Reg)
  | addIVx   (x : Reg)
  | ldFVx    (x : Reg)
  | ldBVx    (x : Reg)
  /-- `LD [I], Vx`. -/
  | ldMemVx  (x : Reg)
  /-- `LD Vx, [I]`. -/
  | ldVxMem  (x : Reg)
  /-- Every word outside the 34 defined patterns (R260). It keeps its word, so that no bit is lost (R117; log 22). -/
  | nop      (word : Word)
deriving DecidableEq, Repr

/-- A row of the opcode table of R106: a word selects it when the word, masked, equals `value`. -/
structure OpcodeRow where
  mnemonic : String
  value    : Word
  mask     : Word
deriving DecidableEq, Repr

namespace OpcodeRow

/-- A word selects the row (R106). -/
def selects (r : OpcodeRow) (w : Word) : Bool := w &&& r.mask == r.value

end OpcodeRow

/-- Rows `00E0` to `7xnn` of R106. -/
def opcodeRows0 : List OpcodeRow :=
  [⟨"CLS",        0x00E0, 0xFFFF⟩, ⟨"RET",        0x00EE, 0xFFFF⟩,
   ⟨"JP_nnn",     0x1000, 0xF000⟩, ⟨"CALL_nnn",   0x2000, 0xF000⟩,
   ⟨"SE_Vx__nn",  0x3000, 0xF000⟩, ⟨"SNE_Vx__nn", 0x4000, 0xF000⟩,
   ⟨"SE_Vx__Vy",  0x5000, 0xF00F⟩, ⟨"LD_Vx__nn",  0x6000, 0xF000⟩,
   ⟨"ADD_Vx__nn", 0x7000, 0xF000⟩]

/-- Rows `8xy0` to `9xy0` of R106. -/
def opcodeRows8 : List OpcodeRow :=
  [⟨"LD_Vx__Vy",   0x8000, 0xF00F⟩, ⟨"OR_Vx__Vy",  0x8001, 0xF00F⟩,
   ⟨"AND_Vx__Vy",  0x8002, 0xF00F⟩, ⟨"XOR_Vx__Vy", 0x8003, 0xF00F⟩,
   ⟨"ADD_Vx__Vy",  0x8004, 0xF00F⟩, ⟨"SUB_Vx__Vy", 0x8005, 0xF00F⟩,
   ⟨"SHR_Vx",      0x8006, 0xF00F⟩, ⟨"SUBN_Vx__Vy", 0x8007, 0xF00F⟩,
   ⟨"SHL_Vx",      0x800E, 0xF00F⟩, ⟨"SNE_Vx__Vy", 0x9000, 0xF00F⟩]

/-- Rows `Annn` to `ExA1` of R106. -/
def opcodeRowsA : List OpcodeRow :=
  [⟨"LD_I__nnn",  0xA000, 0xF000⟩, ⟨"JP_V0__nnn",    0xB000, 0xF000⟩,
   ⟨"RND_Vx__nn", 0xC000, 0xF000⟩, ⟨"DRW_Vx__Vy__n", 0xD000, 0xF000⟩,
   ⟨"SKP_Vx",     0xE09E, 0xF0FF⟩, ⟨"SKNP_Vx",       0xE0A1, 0xF0FF⟩]

/-- Rows `Fx07` to `Fx65` of R106. -/
def opcodeRowsF : List OpcodeRow :=
  [⟨"LD_Vx__DT", 0xF007, 0xF0FF⟩, ⟨"LD_Vx__K",   0xF00A, 0xF0FF⟩,
   ⟨"LD_DT__Vx", 0xF015, 0xF0FF⟩, ⟨"LD_ST__Vx",  0xF018, 0xF0FF⟩,
   ⟨"ADD_I__Vx", 0xF01E, 0xF0FF⟩, ⟨"LD_F__Vx",   0xF029, 0xF0FF⟩,
   ⟨"LD_B__Vx",  0xF033, 0xF0FF⟩, ⟨"LD__I___Vx", 0xF055, 0xF0FF⟩,
   ⟨"LD_Vx___I", 0xF065, 0xF0FF⟩]

/-- The 34 defined rows of R106, mnemonics as spec/opcode_table.json spells them. The 35th, the no-op, is every other word. -/
def opcodeRows : List OpcodeRow := opcodeRows0 ++ opcodeRows8 ++ opcodeRowsA ++ opcodeRowsF

/-- The mnemonic of an instruction's row of spec/opcode_table.json. -/
def Instr.mnemonic : Instr → String
  | .cls => "CLS"
  | .ret => "RET"
  | .jpNnn _ => "JP_nnn"
  | .callNnn _ => "CALL_nnn"
  | .seVxNn _ _ => "SE_Vx__nn"
  | .sneVxNn _ _ => "SNE_Vx__nn"
  | .seVxVy _ _ => "SE_Vx__Vy"
  | .ldVxNn _ _ => "LD_Vx__nn"
  | .addVxNn _ _ => "ADD_Vx__nn"
  | .ldVxVy _ _ => "LD_Vx__Vy"
  | .orVxVy _ _ => "OR_Vx__Vy"
  | .andVxVy _ _ => "AND_Vx__Vy"
  | .xorVxVy _ _ => "XOR_Vx__Vy"
  | .addVxVy _ _ => "ADD_Vx__Vy"
  | .subVxVy _ _ => "SUB_Vx__Vy"
  | .shrVx _ _ => "SHR_Vx"
  | .subnVxVy _ _ => "SUBN_Vx__Vy"
  | .shlVx _ _ => "SHL_Vx"
  | .sneVxVy _ _ => "SNE_Vx__Vy"
  | .ldINnn _ => "LD_I__nnn"
  | .jpV0Nnn _ => "JP_V0__nnn"
  | .rndVxNn _ _ => "RND_Vx__nn"
  | .drwVxVyN _ _ _ => "DRW_Vx__Vy__n"
  | .skpVx _ => "SKP_Vx"
  | .sknpVx _ => "SKNP_Vx"
  | .ldVxDt _ => "LD_Vx__DT"
  | .ldVxK _ => "LD_Vx__K"
  | .ldDtVx _ => "LD_DT__Vx"
  | .ldStVx _ => "LD_ST__Vx"
  | .addIVx _ => "ADD_I__Vx"
  | .ldFVx _ => "LD_F__Vx"
  | .ldBVx _ => "LD_B__Vx"
  | .ldMemVx _ => "LD__I___Vx"
  | .ldVxMem _ => "LD_Vx___I"
  | .nop _ => "NOP"

end Sys2Proof
end

