-- ==== Sys2Proof/WellFormed.lean ====
section
/-! DEFINITION. Well-formed instructions. The operand types already bound every field (R102, R104), so one check is left: a no-op
carries a word that selects no defined row of the opcode table (R106, R260). -/

namespace Sys2Proof

/-- The word selects one of the 34 defined rows of R106. -/
def isDefinedWord (w : Word) : Bool := opcodeRows.any (fun r => r.selects w)

/-- The instruction is one the decoder can give. -/
def Instr.wellFormed : Instr → Bool
  | .nop w => !isDefinedWord w
  | .cls | .ret => true
  | .jpNnn _ | .callNnn _ | .ldINnn _ | .jpV0Nnn _ => true
  | .seVxNn _ _ | .sneVxNn _ _ | .ldVxNn _ _ | .addVxNn _ _ | .rndVxNn _ _ => true
  | .seVxVy _ _ | .sneVxVy _ _ => true
  | .ldVxVy _ _ | .orVxVy _ _ | .andVxVy _ _ | .xorVxVy _ _ | .addVxVy _ _ | .subVxVy _ _ | .shrVx _ _
  | .subnVxVy _ _ | .shlVx _ _ => true
  | .drwVxVyN _ _ _ => true
  | .skpVx _ | .sknpVx _ => true
  | .ldVxDt _ | .ldVxK _ | .ldDtVx _ | .ldStVx _ | .addIVx _ | .ldFVx _ | .ldBVx _ | .ldMemVx _ | .ldVxMem _ => true

end Sys2Proof
end

