-- ==== Sys2Proof/Decode.lean ====
section
/-! DEFINITION. Decoding (R100 to R112): total on all 65 536 words and, on bytes, rejecting by name what is too short to be an
instruction; then the encoder, written from the same table. -/

namespace Sys2Proof

/-- Bits 15..12, on which dispatch works (R102). -/
def topNibble (w : Word) : Nat := (w.extractLsb' 12 4).toNat

/-- `x`, bits 11..8 (R102). -/
def fieldX (w : Word) : Reg := (w.extractLsb' 8 4).toFin

/-- `y`, bits 7..4 (R102). -/
def fieldY (w : Word) : Reg := (w.extractLsb' 4 4).toFin

/-- `n`, bits 3..0 (R102). -/
def fieldN (w : Word) : Fin 16 := (w.extractLsb' 0 4).toFin

/-- `nn`, bits 7..0 (R102). -/
def fieldNn (w : Word) : Byte := w.extractLsb' 0 8

/-- `nnn`, bits 11..0 (R102). -/
def fieldNnn (w : Word) : Address := w.extractLsb' 0 12

/-- Group 0: the whole word must be `00E0` or `00EE` (R105, R109). -/
def decodeGroup0 (w : Word) : Instr :=
  if w = 0x00E0 then .cls else if w = 0x00EE then .ret else .nop w

/-- Group 5: the low nibble must be 0 (R105, R110; log 14). -/
def decodeGroup5 (w : Word) : Instr :=
  if fieldN w = 0 then .seVxVy (fieldX w) (fieldY w) else .nop w

/-- Group 9: the low nibble must be 0 (R105, R110; log 14). -/
def decodeGroup9 (w : Word) : Instr :=
  if fieldN w = 0 then .sneVxVy (fieldX w) (fieldY w) else .nop w

/-- Group 8: sub-dispatch on the low nibble (R105). -/
def decodeGroup8 (w : Word) : Instr :=
  match (fieldN w).val with
  | 0x0 => .ldVxVy (fieldX w) (fieldY w)
  | 0x1 => .orVxVy (fieldX w) (fieldY w)
  | 0x2 => .andVxVy (fieldX w) (fieldY w)
  | 0x3 => .xorVxVy (fieldX w) (fieldY w)
  | 0x4 => .addVxVy (fieldX w) (fieldY w)
  | 0x5 => .subVxVy (fieldX w) (fieldY w)
  | 0x6 => .shrVx (fieldX w) (fieldY w)
  | 0x7 => .subnVxVy (fieldX w) (fieldY w)
  | 0xE => .shlVx (fieldX w) (fieldY w)
  | _ => .nop w

/-- Group E: sub-dispatch on the low byte (R105). -/
def decodeGroupE (w : Word) : Instr :=
  match (fieldNn w).toNat with
  | 0x9E => .skpVx (fieldX w)
  | 0xA1 => .sknpVx (fieldX w)
  | _ => .nop w

/-- Group F: sub-dispatch on the low byte (R105). -/
def decodeGroupF (w : Word) : Instr :=
  match (fieldNn w).toNat with
  | 0x07 => .ldVxDt (fieldX w)
  | 0x0A => .ldVxK (fieldX w)
  | 0x15 => .ldDtVx (fieldX w)
  | 0x18 => .ldStVx (fieldX w)
  | 0x1E => .addIVx (fieldX w)
  | 0x29 => .ldFVx (fieldX w)
  | 0x33 => .ldBVx (fieldX w)
  | 0x55 => .ldMemVx (fieldX w)
  | 0x65 => .ldVxMem (fieldX w)
  | _ => .nop w

/-- The decode tree of R105. Decoding cannot fail and reads no state (R132); the no-op is named, not fallen into (R261). -/
def decode (w : Word) : Instr :=
  match topNibble w with
  | 0x0 => decodeGroup0 w
  | 0x1 => .jpNnn (fieldNnn w)
  | 0x2 => .callNnn (fieldNnn w)
  | 0x3 => .seVxNn (fieldX w) (fieldNn w)
  | 0x4 => .sneVxNn (fieldX w) (fieldNn w)
  | 0x5 => decodeGroup5 w
  | 0x6 => .ldVxNn (fieldX w) (fieldNn w)
  | 0x7 => .addVxNn (fieldX w) (fieldNn w)
  | 0x8 => decodeGroup8 w
  | 0x9 => decodeGroup9 w
  | 0xA => .ldINnn (fieldNnn w)
  | 0xB => .jpV0Nnn (fieldNnn w)
  | 0xC => .rndVxNn (fieldX w) (fieldNn w)
  | 0xD => .drwVxVyN (fieldX w) (fieldY w) (fieldN w)
  | 0xE => decodeGroupE w
  | _ => decodeGroupF w   -- 0xF, the one nibble left

/-- Why bytes do not decode. -/
inductive DecodeError where
  /-- Fewer than the two bytes every instruction has (R100). Raised by `decodeBytes`; the machine's fetch always gives two. -/
  | truncated
deriving DecidableEq, Repr

/-- The big-endian word of two bytes, the byte at the lower address first (R74, R101). -/
def wordOfBytes (hi lo : Byte) : Word := hi ++ lo

/-- The high byte of a word, stored at the lower address (R101). -/
def highByte (w : Word) : Byte := w.extractLsb' 8 8

/-- The low byte of a word, stored at the higher address (R101). -/
def lowByte (w : Word) : Byte := w.extractLsb' 0 8

/-- Decode the instruction at the front of some bytes and give the bytes after it. -/
def decodeBytes : List Byte → Except DecodeError (Instr × List Byte)
  | hi :: lo :: rest => .ok (decode (wordOfBytes hi lo), rest)
  | [_] => .error .truncated
  | [] => .error .truncated

/-- Formats RI: opcode nibble, `x`, `nn` (R103). -/
def encodeRI (op : Nat) (x : Reg) (nn : Byte) : Word := BitVec.ofNat 16 (op * 0x1000 + x.val * 0x100 + nn.toNat)

/-- Formats RR and RRN: opcode nibble, `x`, `y`, low nibble (R103). -/
def encodeRR (op : Nat) (x y : Reg) (n : Nat) : Word := BitVec.ofNat 16 (op * 0x1000 + x.val * 0x100 + y.val * 0x10 + n)

/-- Format A: opcode nibble, `nnn` (R103). -/
def encodeA (op : Nat) (nnn : Address) : Word := BitVec.ofNat 16 (op * 0x1000 + nnn.toNat)

/-- The word of an instruction (R106). -/
def encode : Instr → Word
  | .cls => 0x00E0
  | .ret => 0x00EE
  | .jpNnn nnn => encodeA 0x1 nnn
  | .callNnn nnn => encodeA 0x2 nnn
  | .seVxNn x nn => encodeRI 0x3 x nn
  | .sneVxNn x nn => encodeRI 0x4 x nn
  | .seVxVy x y => encodeRR 0x5 x y 0x0
  | .ldVxNn x nn => encodeRI 0x6 x nn
  | .addVxNn x nn => encodeRI 0x7 x nn
  | .ldVxVy x y => encodeRR 0x8 x y 0x0
  | .orVxVy x y => encodeRR 0x8 x y 0x1
  | .andVxVy x y => encodeRR 0x8 x y 0x2
  | .xorVxVy x y => encodeRR 0x8 x y 0x3
  | .addVxVy x y => encodeRR 0x8 x y 0x4
  | .subVxVy x y => encodeRR 0x8 x y 0x5
  | .shrVx x y => encodeRR 0x8 x y 0x6
  | .subnVxVy x y => encodeRR 0x8 x y 0x7
  | .shlVx x y => encodeRR 0x8 x y 0xE
  | .sneVxVy x y => encodeRR 0x9 x y 0x0
  | .ldINnn nnn => encodeA 0xA nnn
  | .jpV0Nnn nnn => encodeA 0xB nnn
  | .rndVxNn x nn => encodeRI 0xC x nn
  | .drwVxVyN x y n => encodeRR 0xD x y n.val
  | .skpVx x => encodeRI 0xE x 0x9E
  | .sknpVx x => encodeRI 0xE x 0xA1
  | .ldVxDt x => encodeRI 0xF x 0x07
  | .ldVxK x => encodeRI 0xF x 0x0A
  | .ldDtVx x => encodeRI 0xF x 0x15
  | .ldStVx x => encodeRI 0xF x 0x18
  | .addIVx x => encodeRI 0xF x 0x1E
  | .ldFVx x => encodeRI 0xF x 0x29
  | .ldBVx x => encodeRI 0xF x 0x33
  | .ldMemVx x => encodeRI 0xF x 0x55
  | .ldVxMem x => encodeRI 0xF x 0x65
  | .nop w => w

/-- The two bytes of an instruction in address order (R101). -/
def encodeBytes (i : Instr) : List Byte := [highByte (encode i), lowByte (encode i)]

/-- The 16-bit word of a table word: `nbits` bits numbered as spec/opcode_table.json numbers them, every bit above them 0. -/
def wordOfTableBits (nbits w : Nat) : Word := BitVec.ofNat 16 (w % 2 ^ nbits)

/-- What the decoder reads from a table word stored as the hardware stores it. -/
def decodeTableWord (nbits w : Nat) : Option Instr :=
  match decodeBytes [highByte (wordOfTableBits nbits w), lowByte (wordOfTableBits nbits w)] with
  | .ok (i, _) => some i
  | .error .truncated => none

end Sys2Proof
end

