-- ==== Sys2Proof/Config.lean ====
section
/-! DEFINITION. The parameters of the core (R7, R8) with their defaults, and the free values: the inputs that no rule fixes. -/

namespace Sys2Proof

/-- The parameters R7 marks *parameter*. A machine keeps its `Config` for ever. DESIGN CHOICE (log 4): the record stands in State,
so that a statement about every state is about every choice of the parameters. -/
structure Config where
  /-- `FB_WIDTH`, framebuffer columns. -/
  fbWidth    : Nat
  /-- `FB_HEIGHT`, framebuffer rows. -/
  fbHeight   : Nat
  /-- `FONT[0..79]`, sixteen glyphs of five bytes. -/
  font       : Vector Byte 80
  /-- `STACK_DEPTH`; none is the unbounded stack. -/
  stackDepth : Option Nat
  /-- `MEM_FILL`, what a cell outside the font table holds at reset. DESIGN CHOICE (log 6): one byte for every cell, the first of the
  two forms the spec's decision D9 allows; the other is an initial image of 4096 bytes. -/
  memFill    : Byte
deriving DecidableEq, Repr

namespace Config

/-- The constraints of R8. -/
def valid (c : Config) : Bool :=
  decide (1 ≤ c.fbWidth) && decide (1 ≤ c.fbHeight) && c.stackDepth.all (fun d => decide (1 ≤ d))

/-- Glyphs 0 to 3 of the table of R79 (PRESUMED by the spec itself, D3; log 5). -/
def font0 : Vector Byte 20 :=
  #v[0xF0, 0x90, 0x90, 0x90, 0xF0,  0x20, 0x60, 0x20, 0x20, 0x70,
     0xF0, 0x10, 0xF0, 0x80, 0xF0,  0xF0, 0x10, 0xF0, 0x10, 0xF0]

/-- Glyphs 4 to 7 of the table of R79. -/
def font4 : Vector Byte 20 :=
  #v[0x90, 0x90, 0xF0, 0x10, 0x10,  0xF0, 0x80, 0xF0, 0x10, 0xF0,
     0xF0, 0x80, 0xF0, 0x90, 0xF0,  0xF0, 0x10, 0x20, 0x40, 0x40]

/-- Glyphs 8 to B of the table of R79. -/
def font8 : Vector Byte 20 :=
  #v[0xF0, 0x90, 0xF0, 0x90, 0xF0,  0xF0, 0x90, 0xF0, 0x10, 0xF0,
     0xF0, 0x90, 0xF0, 0x90, 0x90,  0xE0, 0x90, 0xE0, 0x90, 0xE0]

/-- Glyphs C to F of the table of R79. -/
def fontC : Vector Byte 20 :=
  #v[0xF0, 0x80, 0x80, 0x80, 0xF0,  0xE0, 0x90, 0x90, 0x90, 0xE0,
     0xF0, 0x80, 0xF0, 0x80, 0xF0,  0xF0, 0x80, 0xF0, 0x80, 0x80]

/-- The default parameters of R7: 64 by 32 pixels, the font of R79, sixteen stack entries, memory filled with zero. -/
def default : Config where
  fbWidth    := 64
  fbHeight   := 32
  font       := font0 ++ font4 ++ font8 ++ fontC
  stackDepth := some 16
  memFill    := 0x00

/-- FREE VALUE (log 1): the key vector the host presents at the `n`-th sample once the listed inputs are used up.
R140: a claim holds for every sequence of `keys` values, so it has no body. -/
opaque freeKeys : Nat → Word

/-- FREE VALUE (log 2): the byte of the `n`-th draw from the random source once the listed inputs are used up.
R58: the core assumes nothing about it, so it has no body. -/
opaque freeRandomByte : Nat → Byte

end Config

end Sys2Proof
end

