-- ==== Sys2Proof/Machine/State.lean ====
section
/-! DEFINITION. The state of the core (R30), its parameters, its inputs and outputs, and the state after reset (R62, R311). -/

namespace Sys2Proof.Machine

/-- Memory: the cells that differ from what an unlisted address reads as, addresses strictly rising (log 24). -/
abbrev Memory := List Host.Cell

/-- A framebuffer cell: column, row (R54). -/
abbrev Pixel := Nat × Nat

/-- The framebuffer: the cells that are 1, in row-major order, each once (log 23). -/
abbrev Framebuffer := List Pixel

/-- The machine. -/
structure State where
  /-- The parameters of this machine (R7); no step changes them (log 4). -/
  cfg        : Config
  /-- `V0` to `VF` (R31). -/
  v          : Vector Byte 16
  /-- The program counter (R36). -/
  pc         : Word
  /-- The index register `I` (R44). -/
  index      : Word
  /-- The delay timer `DT` (R47). -/
  dt         : Byte
  /-- The sound timer `ST` (R48). -/
  st         : Byte
  /-- The live stack entries, the most recent first; `SP` is their number (R50; log 9). -/
  stack      : List Word
  /-- The instruction counter `ICOUNT` (R53). -/
  icount     : BitVec 64
  /-- The framebuffer `FB` (R54). -/
  fb         : Framebuffer
  /-- The memory `MEM` (R60). -/
  mem        : Memory
  /-- INPUT: the key vectors the host presents, one a Step, the next Step's first (R57; log 1). -/
  keyInputs  : List Word
  /-- How many key samples have been taken: the argument of the free value `Config.freeKeys` (log 1). -/
  keySamples : Nat
  /-- INPUT: the bytes the random source delivers, one an executed `Cxnn`, the next one's first (R58; log 2). -/
  rndInputs  : List Byte
  /-- How many bytes have been drawn: the argument of the free value `Config.freeRandomByte` (log 2). -/
  rndDraws   : Nat
  /-- OUTPUT: the strobe `disp_dirty` of the Step that led to this state (R59; log 3). -/
  dispDirty  : Bool
  /-- OUTPUT: the strobe `undef_op` of the Step that led to this state (R59; log 3). -/
  undefOp    : Bool
deriving DecidableEq, Repr

/-- The error conditions of R270. -/
inductive Fault where
  /-- An access outside `[0, 4096)`, with the first address out of range (R271, R276). Raised by the fetch, `Dxyn`, `Fx33`, `Fx55`
  and `Fx65`. Safe: the spec's own fault (log 16). -/
  | addressOutOfRange (addr : Nat)
  /-- `00EE` with an empty stack (R272). Raised by `00EE`. Safe: the spec's own fault (log 16). -/
  | stackUnderflow
  /-- `2nnn` with a full stack (R273). Raised by `2nnn`. Safe: the spec's own fault (log 16). -/
  | stackOverflow
  /-- A program image of more than 3584 bytes (R274); it carries nothing (D12; log 17). Raised by `loadProgram`, never by a step.
  Safe: the spec's own fault (log 19). -/
  | programTooLarge
deriving DecidableEq, Repr

/-- Why an instruction would have no meaning. Every instruction has one, so no step refuses. -/
inductive Refusal where
  /-- The instruction has no meaning yet. Raised by `exec` alone, by no arm of it now. Safe. -/
  | notModelled (mnemonic : String)
deriving DecidableEq, Repr

/-- The state after reset of a machine with parameters `c` (R62, R311). Memory lists nothing: every cell holds its reset content.
The zeros of `index`, `dt`, `st`, `stack`, `icount`, `fb` are the spec's decisions D7, D16, D8 (logs 7, 8, 25); the last six fields
are the model's own (logs 1, 2, 3). -/
def State.resetWith (c : Config) : State where
  cfg        := c
  v          := Vector.replicate 16 0
  pc         := 0x200
  index      := 0
  dt         := 0
  st         := 0
  stack      := []
  icount     := 0
  fb         := []
  mem        := []
  keyInputs  := []
  keySamples := 0
  rndInputs  := []
  rndDraws   := 0
  dispDirty  := false
  undefOp    := false

/-- The state after reset with the default parameters of R7. -/
def State.reset : State := State.resetWith Config.default

end Sys2Proof.Machine
end

