-- ==== Sys2Proof/Machine/Ops.lean ====
section
/-! DEFINITION. The named operations over registers, memory, stack and framebuffer; raising a fault; and the phases of the Step
around the dispatched instruction: fetch, advance, timer tick, completion (R130 to R139). -/

namespace Sys2Proof.Machine

/-- What an instruction or a step answers. -/
abbrev Result := Host.Outcome State Fault Refusal

/-- `raise K(info)` (R15), the one way a fault is taken. The Step ends with the fault as its result: nothing is entered, saved or
latched inside the machine (R278), and the host alone receives it (R281). -/
def raise (f : Fault) : Result := .fault f

/-- The code of a fault, rows 1 to 4 of the table of R270 (log 17). -/
def faultCode : Fault → Nat
  | .addressOutOfRange _ => 1
  | .stackUnderflow => 2
  | .stackOverflow => 3
  | .programTooLarge => 4

/-- The code of a result, the whole table of R270 (log 17): 0 is `Ok`. A refusal is no result of the core and has none. -/
def resultCode : Result → Option Nat
  | .next _ => some 0
  | .fault f => some (faultCode f)
  | .refused _ => none

/-! ## General registers -/

/-- `V[x]` (R13). -/
def State.getV (s : State) (x : Reg) : Byte := s.v[x]

/-- `V[x] <- b` (R13, R33). -/
def State.setV (s : State) (x : Reg) (b : Byte) : State := { s with v := s.v.set x b }

/-- `V[k] <- f k` for `k = 0..x`, the block of `Fx65` (R206). -/
def State.setVBlock (s : State) (x : Reg) (f : Reg → Byte) : State :=
  { s with v := Vector.ofFn (fun k : Fin 16 => if k ≤ x then f k else s.getV k) }

/-! ## Special registers -/

/-- `pc <- target` (R13). -/
def State.setPc (s : State) (w : Word) : State := { s with pc := w }

/-- `I <- w`. -/
def State.setIndex (s : State) (w : Word) : State := { s with index := w }

/-- `DT <- b`. -/
def State.setDt (s : State) (b : Byte) : State := { s with dt := b }

/-- `ST <- b`. -/
def State.setSt (s : State) (b : Byte) : State := { s with st := b }

/-- Output strobe `disp_dirty <- 1` (R220). -/
def State.markDispDirty (s : State) : State := { s with dispDirty := true }

/-- Output strobe `undef_op <- 1` (R260). -/
def State.markUndefOp (s : State) : State := { s with undefOp := true }

/-! ## Memory -/

/-- What a cell that nothing has written holds: the font table at `0x050..0x09F`, `MEM_FILL` elsewhere (R62, R79, R91; logs 5, 6). -/
def Memory.unlisted (c : Config) (a : Nat) : Byte :=
  if h : 0x050 ≤ a ∧ a < 0x0A0 then c.font[a - 0x050] else c.memFill

/-- `MEM[a]`: the listed byte, or the reset content. -/
def Memory.read (c : Config) : Memory → Nat → Byte
  | [], a => Memory.unlisted c a
  | cell :: rest, a => if cell.1 = a then cell.2 else Memory.read c rest a

/-- The listing without address `a`. -/
def Memory.erase (m : Memory) (a : Nat) : Memory := m.filter (fun cell => cell.1 ≠ a)

/-- The listing with a cell added at its place. -/
def Memory.insert (a : Nat) (b : Byte) : Memory → Memory
  | [] => [(a, b)]
  | cell :: rest => if a < cell.1 then (a, b) :: cell :: rest else cell :: Memory.insert a b rest

/-- `MEM[a] <- b`, keeping the canonical form: the reset content is not listed (log 24). -/
def Memory.write (c : Config) (m : Memory) (a : Nat) (b : Byte) : Memory :=
  if b = Memory.unlisted c a then m.erase a else Memory.insert a b (m.erase a)

/-- Bytes written at ascending addresses from `base`. -/
def Memory.writeList (c : Config) (m : Memory) (base : Nat) : List Byte → Memory
  | [] => m
  | b :: rest => Memory.writeList c (m.write c base b) (base + 1) rest

/-- The canonical form of memory: addresses strictly rising and below 4096, no cell equal to its reset content (log 24). -/
abbrev Memory.wf (c : Config) (m : Memory) : Prop :=
  m.Pairwise (fun p q => p.1 < q.1) ∧ ∀ cell ∈ m, cell.1 < 4096 ∧ cell.2 ≠ Memory.unlisted c cell.1

/-- `MEM[a]`, without the range check. -/
def State.readMem (s : State) (a : Nat) : Byte := Memory.read s.cfg s.mem a

/-- The fault of an access to the `len` bytes from `base`, if one of them lies outside `[0, 4096)` (R72, R73, R78). The address
reported is the first one out of range in ascending order (R276; logs 17, 18). An access of no byte never faults (R221). -/
def rangeFault (base len : Nat) : Option Fault :=
  if len ≠ 0 ∧ base + (len - 1) > 0xFFF then some (.addressOutOfRange (max base 0x1000)) else none

/-- `MemRead` of `len` bytes at ascending addresses, all of them range-checked first (R14, R78). -/
def State.loadBytes (s : State) (base len : Nat) : Except Fault (List Byte) :=
  match rangeFault base len with
  | some f => .error f
  | none => .ok ((List.range len).map (fun k => s.readMem (base + k)))

/-- `MemWrite` of bytes at ascending addresses, all of them range-checked first: none is written if one is out of range (R14, R78). -/
def State.storeBytes (s : State) (base : Nat) (bytes : List Byte) : Except Fault State :=
  match rangeFault base bytes.length with
  | some f => .error f
  | none => .ok { s with mem := s.mem.writeList s.cfg base bytes }

/-! ## Call stack -/

/-- `SP`, the number of entries in use (R50; log 9). -/
def State.sp (s : State) : Nat := s.stack.length

/-- `STACK[k]`, the oldest entry being number 0 (R50); none above the pointer. -/
def State.stackEntry (s : State) (k : Nat) : Option Word := s.stack.reverse[k]?

/-- The stack holds `STACK_DEPTH` entries; never so when it is unbounded (R50, R51; log 10). -/
def State.stackFull (s : State) : Bool :=
  match s.cfg.stackDepth with
  | some d => decide (d ≤ s.sp)
  | none => false

/-- `Push(v)` (R51). -/
def State.push (s : State) (w : Word) : Except Fault State :=
  if s.stackFull then .error .stackOverflow else .ok { s with stack := w :: s.stack }

/-- `Pop()` (R51): the value and the state without it. -/
def State.pop (s : State) : Except Fault (Word × State) :=
  match s.stack with
  | [] => .error .stackUnderflow
  | w :: rest => .ok (w, { s with stack := rest })

/-! ## Framebuffer -/

/-- Row-major order of cells, the order of the list `fb` (log 23). -/
abbrev Pixel.before (p q : Pixel) : Prop := p.2 < q.2 ∨ p.2 = q.2 ∧ p.1 < q.1

/-- The cell that coordinates name: each reduced modulo the size, not clipped (R55, R89). -/
def wrapPixel (c : Config) (px py : Nat) : Pixel := (px % c.fbWidth, py % c.fbHeight)

/-- The cell holds 1. -/
def Framebuffer.lit (fb : Framebuffer) (p : Pixel) : Bool := decide (p ∈ fb)

/-- The list with a cell added at its place. -/
def Framebuffer.insert (p : Pixel) : Framebuffer → Framebuffer
  | [] => [p]
  | q :: rest => if Pixel.before p q then p :: q :: rest else q :: Framebuffer.insert p rest

/-- The cell XOR 1 (R55). -/
def Framebuffer.toggle (fb : Framebuffer) (p : Pixel) : Framebuffer :=
  if fb.lit p then fb.filter (fun q => q ≠ p) else Framebuffer.insert p fb

/-- XOR of the cells of a sprite in scan order: the new framebuffer, and whether some cell was 1 when it was toggled (the latch of
R222: a raised flag stays raised). A cell named twice is toggled twice (R223). -/
def Framebuffer.draw : Framebuffer → List Pixel → Framebuffer × Bool
  | fb, [] => (fb, false)
  | fb, p :: rest =>
    ((Framebuffer.draw (fb.toggle p) rest).1, fb.lit p || (Framebuffer.draw (fb.toggle p) rest).2)

/-- The canonical form of the framebuffer: row-major, no cell twice, every cell inside the grid (log 23). -/
abbrev Framebuffer.wf (c : Config) (fb : Framebuffer) : Prop :=
  fb.Pairwise Pixel.before ∧ ∀ p ∈ fb, p.1 < c.fbWidth ∧ p.2 < c.fbHeight

/-- `GetPixel(px, py)` (R55), which the host also reads (R296). -/
def State.getPixel (s : State) (px py : Nat) : Bool := s.fb.lit (wrapPixel s.cfg px py)

/-- The framebuffer replaced. -/
def State.setFb (s : State) (fb : Framebuffer) : State := { s with fb := fb }

/-- `Clear()` (R55). -/
def State.clearFb (s : State) : State := s.setFb []

/-- `TogglePixel(px, py)` (R55). -/
def State.togglePixel (s : State) (px py : Nat) : State := s.setFb (s.fb.toggle (wrapPixel s.cfg px py))

/-! ## Inputs of a Step -/

/-- `keys` of this Step: the next listed input, or a free value when the list is used up (R57; log 1). -/
def State.keys (s : State) : Word :=
  match s.keyInputs with
  | k :: _ => k
  | [] => Config.freeKeys s.keySamples

/-- The Step's key sample is over: one vector a Step (R57; log 27). -/
def State.nextKeys (s : State) : State :=
  { s with keyInputs := s.keyInputs.tail, keySamples := s.keySamples + 1 }

/-- `rnd` of this Step: the next listed byte, or a free value when the list is used up (R58; log 2). -/
def State.rnd (s : State) : Byte :=
  match s.rndInputs with
  | b :: _ => b
  | [] => Config.freeRandomByte s.rndDraws

/-- One byte of the random source is consumed (R58). -/
def State.drawRnd (s : State) : State :=
  { s with rndInputs := s.rndInputs.tail, rndDraws := s.rndDraws + 1 }

/-! ## The phases of a Step -/

/-- Phase (1), the fetch: two bytes at `pc`, big-endian (R74, R131). -/
def State.fetch (s : State) : Except Fault Word :=
  match rangeFault s.pc.toNat 2 with
  | some f => .error f
  | none => .ok (wordOfBytes (s.readMem s.pc.toNat) (s.readMem (s.pc.toNat + 1)))

/-- Both strobes are 0 until the instruction of this Step raises one (R59). -/
def State.clearStrobes (s : State) : State := { s with dispDirty := false, undefOp := false }

/-- Phase (3), the advance by 2 before dispatch (R133). -/
def State.advance (s : State) : State := { s.clearStrobes with pc := s.pc + 2 }

/-- A timer one Step on: down by 1, never below zero (R47, R135). -/
def tickDown (b : Byte) : Byte := if b = 0 then 0 else b - 1

/-- Phase (5), the timer tick, with the values the timers have after dispatch (R135). -/
def State.tick (s : State) : State := { s with dt := tickDown s.dt, st := tickDown s.st }

/-- Phase (6), completion: the counter counts the Step (R136; log 25). -/
def State.count (s : State) : State := { s with icount := s.icount + 1 }

/-- What follows a dispatched instruction that did not fault: tick, count, and the end of the key sample (R135, R136). -/
def State.complete (s : State) : State := s.tick.count.nextKeys

/-- The Step's result from the instruction's: a fault skips the tick and the count (R137). -/
def finishStep : Result → Result
  | .next s => .next s.complete
  | .fault f => .fault f
  | .refused r => .refused r

/-- The state a faulting Step leaves (R131, R137, R279; log 16): after a fetch fault nothing has changed, after a fault in execution
`pc` alone is advanced. The strobes are outputs of this Step, both 0, and the Step used its key sample. -/
def stateAfterFault (s : State) : State :=
  match s.fetch with
  | .error _ => s.clearStrobes.nextKeys
  | .ok _ => s.advance.nextKeys

/-! ## Program load -/

/-- `LoadProgram(bytes)`, the host's one load after reset and before the first Step (R90, R315, R316; logs 19, 20). -/
def loadProgram (bytes : List Byte) (s : State) : Result :=
  if bytes.length > 3584 then raise .programTooLarge
  else .next { s with mem := s.mem.writeList s.cfg 0x200 bytes }

/-- What the table of R270 has the host told beside a load that is too large: the length of its own image. The fault itself carries
nothing (D12; log 17). -/
def loadInfo (bytes : List Byte) : Option Nat := if bytes.length > 3584 then some bytes.length else none

end Sys2Proof.Machine
end

