-- ==== Sys2Proof/Machine/Flags.lean ====
section
/-! DEFINITION. Every flag computation of the core (R41): carry, not-borrow, the bit shifted out; and the write order of a flag and
its result (R170). The collision flag is the latch of `Framebuffer.draw`. -/

namespace Sys2Proof.Machine

/-- The byte a flag is written as: 1 or 0 (R41). -/
def flagByte (b : Bool) : Byte := if b then 1 else 0

/-- Carry out of bit 7: the exact sum exceeds 255 (R177). -/
def carryFlag (a b : Byte) : Bool := decide (a.toNat + b.toNat > 255)

/-- No borrow occurred in `a - b` (R178, R180). -/
def noBorrowFlag (a b : Byte) : Bool := decide (b.toNat ≤ a.toNat)

/-- The bit a right shift by one shifts out (R179). -/
def lowBitFlag (a : Byte) : Bool := a.getLsbD 0

/-- The bit a left shift by one shifts out (R181). -/
def highBitFlag (a : Byte) : Bool := a.getLsbD 7

/-- `VF <- flag`, then `V[x] <- result`: with `x = 15` the result is what remains (R41, R170). Both values are computed from operands
sampled before (log 13). -/
def State.setFlagThenV (s : State) (x : Reg) (result : Byte) (flag : Bool) : State :=
  (s.setV vf (flagByte flag)).setV x result

end Sys2Proof.Machine
end

