-- ==== Sys2Proof/Machine/Alu.lean ====
section
/-! DEFINITION. Load, arithmetic, logic, shift and random (spec/42_load_alu.md). Every value is computed from operands read before
the instruction writes anything (R170; log 13); arithmetic is modulo 256 (R183). -/

namespace Sys2Proof.Machine

/-- `6xnn` (R171). -/
def execLdVxNn (x : Reg) (nn : Byte) (s : State) : Result := .next (s.setV x nn)

/-- `7xnn`, no flag (R172). -/
def execAddVxNn (x : Reg) (nn : Byte) (s : State) : Result := .next (s.setV x (s.getV x + nn))

/-- `8xy0` (R173). -/
def execLdVxVy (x y : Reg) (s : State) : Result := .next (s.setV x (s.getV y))

/-- `8xy1`, no flag (R174). -/
def execOrVxVy (x y : Reg) (s : State) : Result := .next (s.setV x (s.getV x ||| s.getV y))

/-- `8xy2`, no flag (R175). -/
def execAndVxVy (x y : Reg) (s : State) : Result := .next (s.setV x (s.getV x &&& s.getV y))

/-- `8xy3`, no flag (R176). -/
def execXorVxVy (x y : Reg) (s : State) : Result := .next (s.setV x (s.getV x ^^^ s.getV y))

/-- `8xy4` (R177). -/
def execAddVxVy (x y : Reg) (s : State) : Result :=
  .next (s.setFlagThenV x (s.getV x + s.getV y) (carryFlag (s.getV x) (s.getV y)))

/-- `8xy5` (R178). -/
def execSubVxVy (x y : Reg) (s : State) : Result :=
  .next (s.setFlagThenV x (s.getV x - s.getV y) (noBorrowFlag (s.getV x) (s.getV y)))

/-- `8xy6`: shifts `V[x]`, ignores `y` (R111, R179). -/
def execShrVx (x : Reg) (s : State) : Result :=
  .next (s.setFlagThenV x (s.getV x >>> 1) (lowBitFlag (s.getV x)))

/-- `8xy7` (R180). -/
def execSubnVxVy (x y : Reg) (s : State) : Result :=
  .next (s.setFlagThenV x (s.getV y - s.getV x) (noBorrowFlag (s.getV y) (s.getV x)))

/-- `8xyE`: shifts `V[x]`, ignores `y` (R111, R181). -/
def execShlVx (x : Reg) (s : State) : Result :=
  .next (s.setFlagThenV x (s.getV x <<< 1) (highBitFlag (s.getV x)))

/-- `Cxnn`: consumes one byte of the random source (R58, R182). -/
def execRndVxNn (x : Reg) (nn : Byte) (s : State) : Result := .next (s.drawRnd.setV x (s.rnd &&& nn))

end Sys2Proof.Machine
end

