-- ==== Sys2Proof/Machine/Operands.lean ====
section
/-! DEFINITION. Every operand form of the core: skip and jump targets, the base `I`, the glyph address, decimal digits, register
blocks, sprites and key indexes. Register and immediate operands are plain arguments (R104). -/

namespace Sys2Proof.Machine

/-- A skip: a further 2 on the advanced `pc` when the condition holds (R133, R159). -/
def State.skipIf (s : State) (cond : Bool) : State := if cond then s.setPc (s.pc + 2) else s

/-- `pc <- pc - 2` on the advanced `pc`: the next Step runs this instruction again (R133, R243). -/
def State.rearm (s : State) : State := s.setPc (s.pc - 2)

/-- The target of `Bnnn`: the sum masked to 12 bits (R154). -/
def offsetTarget (v0 : Byte) (nnn : Address) : Word := BitVec.ofNat 16 ((v0.toNat + nnn.toNat) % 4096)

/-- `I` as the base of an access: an integer, so that a sum with an offset is not reduced (R73, R203; log 18). -/
def State.base (s : State) : Nat := s.index.toNat

/-- `I + V[x]`, reduced to the 16 bits of the register (R201; log 11). -/
def indexSum (i : Word) (b : Byte) : Word := i + b.setWidth 16

/-- The address of glyph `b`: the whole register value, not masked (R202). -/
def glyphAddress (b : Byte) : Word := BitVec.ofNat 16 (0x050 + 5 * b.toNat)

/-- Hundreds, tens, ones (R204). -/
def decimalDigits (b : Byte) : List Byte :=
  [BitVec.ofNat 8 (b.toNat / 100), BitVec.ofNat 8 (b.toNat / 10 % 10), BitVec.ofNat 8 (b.toNat % 10)]

/-- `V[0], …, V[x]` (R205). -/
def State.vBlock (s : State) (x : Reg) : List Byte := s.v.toList.take (x.val + 1)

/-- The cells under the 1 bits of one sprite row, bit 7 leftmost, each wrapped on its own (R222). -/
def rowTargets (c : Config) (vx y : Nat) (b : Byte) : List Pixel :=
  (List.range 8).filterMap (fun col => if b.getLsbD (7 - col) then some (wrapPixel c (vx + col) y) else none)

/-- The cells under the 1 bits of a sprite in scan order, top row first (R222). -/
def spriteTargets (c : Config) (vx : Nat) : Nat → List Byte → List Pixel
  | _, [] => []
  | y, b :: rest => rowTargets c vx y b ++ spriteTargets c vx (y + 1) rest

/-- `Pressed(k)` for a whole register value: false from 16 up, not masked (R242; log 15). -/
def pressed (keys : Word) (k : Byte) : Bool := decide (k.toNat < 16) && keys.getLsbD k.toNat

/-- The least pressed key, if any (R243). -/
def lowestKey (keys : Word) : Option Byte :=
  ((List.range 16).find? (fun k => keys.getLsbD k)).map (BitVec.ofNat 8)

end Sys2Proof.Machine
end

