-- ==== Sys2Proof/Machine/Control.lean ====
section
/-! DEFINITION. Control transfer (spec/41_control_flow.md): return, jump, call, jump with offset, the four register skips.
Every meaning runs after the advance, so `s.pc` is the fetch address plus 2 (R18, R133). -/

namespace Sys2Proof.Machine

/-- `00EE` (R150). -/
def execRet (s : State) : Result :=
  match s.pop with
  | .error f => raise f
  | .ok (target, t) => .next (t.setPc target)

/-- `1nnn` (R151). -/
def execJpNnn (nnn : Address) (s : State) : Result := .next (s.setPc (nnn.setWidth 16))

/-- `2nnn` (R152). -/
def execCallNnn (nnn : Address) (s : State) : Result :=
  match s.push s.pc with
  | .error f => raise f
  | .ok t => .next (t.setPc (nnn.setWidth 16))

/-- `Bnnn` (R154). -/
def execJpV0Nnn (nnn : Address) (s : State) : Result := .next (s.setPc (offsetTarget (s.getV 0) nnn))

/-- `3xnn` (R155). -/
def execSeVxNn (x : Reg) (nn : Byte) (s : State) : Result := .next (s.skipIf (s.getV x == nn))

/-- `4xnn` (R156). -/
def execSneVxNn (x : Reg) (nn : Byte) (s : State) : Result := .next (s.skipIf (s.getV x != nn))

/-- `5xy0` (R157). -/
def execSeVxVy (x y : Reg) (s : State) : Result := .next (s.skipIf (s.getV x == s.getV y))

/-- `9xy0` (R158). -/
def execSneVxVy (x y : Reg) (s : State) : Result := .next (s.skipIf (s.getV x != s.getV y))

end Sys2Proof.Machine
end

