-- ==== Sys2Proof/Machine/Display.lean ====
section
/-! DEFINITION. Clear screen and the XOR sprite blitter with its collision flag (spec/44_display.md). -/

namespace Sys2Proof.Machine

/-- `00E0` (R220). -/
def execCls (s : State) : Result := .next s.clearFb.markDispDirty

/-- `Dxyn` (R221, R222): coordinates sampled first, all `n` bytes range-checked and read before `VF` or a cell is written. -/
def execDrwVxVyN (x y : Reg) (n : Fin 16) (s : State) : Result :=
  match s.loadBytes s.base n.val with
  | .error f => raise f
  | .ok rows =>
    let drawn := s.fb.draw (spriteTargets s.cfg (s.getV x).toNat (s.getV y).toNat rows)
    .next ((s.setFb drawn.1).setV vf (flagByte drawn.2))

end Sys2Proof.Machine
end

