-- ==== Sys2Proof/Machine/Index.lean ====
section
/-! DEFINITION. Index register, decimal store, block store and load (spec/43_index_memory.md). No access changes `I` (R203); a store
or a load whose range leaves memory faults and changes nothing (R78). -/

namespace Sys2Proof.Machine

/-- `Annn` (R200). -/
def execLdINnn (nnn : Address) (s : State) : Result := .next (s.setIndex (nnn.setWidth 16))

/-- `Fx1E`, no flag and no fault (R201). -/
def execAddIVx (x : Reg) (s : State) : Result := .next (s.setIndex (indexSum s.index (s.getV x)))

/-- `Fx29` (R202). -/
def execLdFVx (x : Reg) (s : State) : Result := .next (s.setIndex (glyphAddress (s.getV x)))

/-- Bytes stored from `I` up, or the fault of the range. -/
def State.storeAtIndex (s : State) (bytes : List Byte) : Result :=
  match s.storeBytes s.base bytes with
  | .error f => raise f
  | .ok t => .next t

/-- `Fx33` (R204). -/
def execLdBVx (x : Reg) (s : State) : Result := s.storeAtIndex (decimalDigits (s.getV x))

/-- `Fx55` (R205). -/
def execLdMemVx (x : Reg) (s : State) : Result := s.storeAtIndex (s.vBlock x)

/-- `Fx65` (R206). -/
def execLdVxMem (x : Reg) (s : State) : Result :=
  match s.loadBytes s.base (x.val + 1) with
  | .error f => raise f
  | .ok bytes => .next (s.setVBlock x (fun k => bytes.getD k.val 0))

end Sys2Proof.Machine
end

