-- ==== Sys2Proof/Machine/Keys.lean ====
section
/-! DEFINITION. Key skips, key wait and timer access (spec/45_keys_timers.md). The tick follows in the same Step (R247). -/

namespace Sys2Proof.Machine

/-- `Ex9E` (R240). -/
def execSkpVx (x : Reg) (s : State) : Result := .next (s.skipIf (pressed s.keys (s.getV x)))

/-- `ExA1` (R241). -/
def execSknpVx (x : Reg) (s : State) : Result := .next (s.skipIf (!pressed s.keys (s.getV x)))

/-- `Fx0A` (R243): the least pressed key, or the re-arm. -/
def execLdVxK (x : Reg) (s : State) : Result :=
  .next (match lowestKey s.keys with
    | some k => s.setV x k
    | none => s.rearm)

/-- `Fx07` (R244). -/
def execLdVxDt (x : Reg) (s : State) : Result := .next (s.setV x s.dt)

/-- `Fx15` (R245). -/
def execLdDtVx (x : Reg) (s : State) : Result := .next (s.setDt (s.getV x))

/-- `Fx18` (R246). -/
def execLdStVx (x : Reg) (s : State) : Result := .next (s.setSt (s.getV x))

end Sys2Proof.Machine
end

