-- ==== Sys2Proof/Machine/Undefined.lean ====
section
/-! DEFINITION. The no-op that every undefined word executes as (spec/46_undefined_nop.md). -/

namespace Sys2Proof.Machine

/-- Any other word (R260): nothing but the strobe `undef_op`; `pc` is already advanced. -/
def execNop (s : State) : Result := .next s.markUndefOp

end Sys2Proof.Machine
end

