-- ==== Sys2Proof/Machine/Step.lean ====
section
/-! DEFINITION. One Step (R130, R139): fetch, decode, advance, dispatch, tick, completion. -/

namespace Sys2Proof.Machine

/-- `Step(keys, rnd)` (R139); the inputs come from the state's input lists (logs 1, 2). -/
def step (s : State) : Host.Outcome State Fault Refusal :=
  match s.fetch with
  | .error f => raise f
  | .ok w => finishStep (exec (decode w) s.advance)

/-- `s` with an instruction stored where `step` fetches next. Where `pc` cannot be fetched from (`0xFFF` and up, R131) there is no
such place, and `s` is unchanged (logs 20, 21). -/
def State.withFetchWord (s : State) (nbits w : Nat) : State :=
  match s.storeBytes s.pc.toNat [highByte (wordOfTableBits nbits w), lowByte (wordOfTableBits nbits w)] with
  | .ok t => t
  | .error _ => s

end Sys2Proof.Machine
end

