-- ==== Sys2Proof/Machine/Assembly.lean ====
section
/-! DEFINITION. The assembly notation of R113 to R117, token by token (characters: Machine/AsmText.lean; log 28): which word a mnemonic and its operand kinds select,
the disassembly of a word, and the layout of a program with labels and directives. -/

namespace Sys2Proof

/-- The mnemonics of R115 and the two ways of R116 to write a word that is no instruction. -/
inductive AsmName where
  | cls | ret | jp | call | se | sne | ld | add | or | and | xor | sub | shr | subn | shl | rnd | drw | skp | sknp
  | dw | nop
deriving DecidableEq, Repr

/-- The operand kinds of R114. -/
inductive AsmOperand where
  | reg (x : Reg)
  | num (n : Nat)
  | label (name : List Char)
  /-- `I`. -/
  | index
  /-- `[I]`. -/
  | atIndex
  | dt
  | st
  /-- `K`, the key wait. -/
  | key
  /-- `F`, the font address. -/
  | font
  /-- `B`, the decimal digits. -/
  | digits
deriving DecidableEq, Repr

/-- `nn` must be in 0..255 (R114). -/
def asmByte (n : Nat) : Option Byte := if n < 256 then some (BitVec.ofNat 8 n) else none

/-- `nnn` must be in 0..4095 (R114). -/
def asmAddress (n : Nat) : Option Address := if n < 4096 then some (BitVec.ofNat 12 n) else none

/-- `n` must be in 0..15 (R114). -/
def asmNibble (n : Nat) : Option (Fin 16) := if h : n < 16 then some ⟨n, h⟩ else none

/-- The instruction a mnemonic with its operand kinds selects, destination first (R115). `SHR` and `SHL` take `y = 0`. -/
def assembleInstr : AsmName → List AsmOperand → Option Instr
  | .cls, [] => some .cls
  | .ret, [] => some .ret
  | .jp, [.num a] => (asmAddress a).map .jpNnn
  | .jp, [.reg x, .num a] => if x = 0 then (asmAddress a).map .jpV0Nnn else none
  | .call, [.num a] => (asmAddress a).map .callNnn
  | .se, [.reg x, .num b] => (asmByte b).map (.seVxNn x)
  | .se, [.reg x, .reg y] => some (.seVxVy x y)
  | .sne, [.reg x, .num b] => (asmByte b).map (.sneVxNn x)
  | .sne, [.reg x, .reg y] => some (.sneVxVy x y)
  | .ld, [.reg x, .num b] => (asmByte b).map (.ldVxNn x)
  | .ld, [.reg x, .reg y] => some (.ldVxVy x y)
  | .ld, [.index, .num a] => (asmAddress a).map .ldINnn
  | .ld, [.reg x, .dt] => some (.ldVxDt x)
  | .ld, [.reg x, .key] => some (.ldVxK x)
  | .ld, [.dt, .reg x] => some (.ldDtVx x)
  | .ld, [.st, .reg x] => some (.ldStVx x)
  | .ld, [.font, .reg x] => some (.ldFVx x)
  | .ld, [.digits, .reg x] => some (.ldBVx x)
  | .ld, [.atIndex, .reg x] => some (.ldMemVx x)
  | .ld, [.reg x, .atIndex] => some (.ldVxMem x)
  | .add, [.reg x, .num b] => (asmByte b).map (.addVxNn x)
  | .add, [.reg x, .reg y] => some (.addVxVy x y)
  | .add, [.index, .reg x] => some (.addIVx x)
  | .or, [.reg x, .reg y] => some (.orVxVy x y)
  | .and, [.reg x, .reg y] => some (.andVxVy x y)
  | .xor, [.reg x, .reg y] => some (.xorVxVy x y)
  | .sub, [.reg x, .reg y] => some (.subVxVy x y)
  | .shr, [.reg x] => some (.shrVx x 0)
  | .subn, [.reg x, .reg y] => some (.subnVxVy x y)
  | .shl, [.reg x] => some (.shlVx x 0)
  | .rnd, [.reg x, .num b] => (asmByte b).map (.rndVxNn x)
  | .drw, [.reg x, .reg y, .num n] => (asmNibble n).map (.drwVxVyN x y)
  | .skp, [.reg x] => some (.skpVx x)
  | .sknp, [.reg x] => some (.sknpVx x)
  | _, _ => none

/-- The word of one line: an instruction, `DW word`, or `NOP` for `0x0000` (R116). -/
def assembleWord : AsmName → List AsmOperand → Option Word
  | .dw, [.num w] => if w < 65536 then some (BitVec.ofNat 16 w) else none
  | .nop, [] => some 0x0000
  | name, operands => (assembleInstr name operands).map encode

/-- The word written as `DW` (R117). -/
def dwLine (w : Word) : AsmName × List AsmOperand := (.dw, [.num w.toNat])

/-- The line a word prints as (R117): `SHR` and `SHL` with `y` not 0 print as `DW`, so that no bit is lost. -/
def disassemble (w : Word) : AsmName × List AsmOperand :=
  match decode w with
  | .cls => (.cls, [])
  | .ret => (.ret, [])
  | .jpNnn nnn => (.jp, [.num nnn.toNat])
  | .callNnn nnn => (.call, [.num nnn.toNat])
  | .seVxNn x nn => (.se, [.reg x, .num nn.toNat])
  | .sneVxNn x nn => (.sne, [.reg x, .num nn.toNat])
  | .seVxVy x y => (.se, [.reg x, .reg y])
  | .ldVxNn x nn => (.ld, [.reg x, .num nn.toNat])
  | .addVxNn x nn => (.add, [.reg x, .num nn.toNat])
  | .ldVxVy x y => (.ld, [.reg x, .reg y])
  | .orVxVy x y => (.or, [.reg x, .reg y])
  | .andVxVy x y => (.and, [.reg x, .reg y])
  | .xorVxVy x y => (.xor, [.reg x, .reg y])
  | .addVxVy x y => (.add, [.reg x, .reg y])
  | .subVxVy x y => (.sub, [.reg x, .reg y])
  | .shrVx x y => if y = 0 then (.shr, [.reg x]) else dwLine w
  | .subnVxVy x y => (.subn, [.reg x, .reg y])
  | .shlVx x y => if y = 0 then (.shl, [.reg x]) else dwLine w
  | .sneVxVy x y => (.sne, [.reg x, .reg y])
  | .ldINnn nnn => (.ld, [.index, .num nnn.toNat])
  | .jpV0Nnn nnn => (.jp, [.reg 0, .num nnn.toNat])
  | .rndVxNn x nn => (.rnd, [.reg x, .num nn.toNat])
  | .drwVxVyN x y n => (.drw, [.reg x, .reg y, .num n.val])
  | .skpVx x => (.skp, [.reg x])
  | .sknpVx x => (.sknp, [.reg x])
  | .ldVxDt x => (.ld, [.reg x, .dt])
  | .ldVxK x => (.ld, [.reg x, .key])
  | .ldDtVx x => (.ld, [.dt, .reg x])
  | .ldStVx x => (.ld, [.st, .reg x])
  | .addIVx x => (.add, [.index, .reg x])
  | .ldFVx x => (.ld, [.font, .reg x])
  | .ldBVx x => (.ld, [.digits, .reg x])
  | .ldMemVx x => (.ld, [.atIndex, .reg x])
  | .ldVxMem x => (.ld, [.reg x, .atIndex])
  | .nop _ => dwLine w

/-- What a line holds beside its label (R114, R116). -/
inductive AsmStatement where
  | word (name : AsmName) (operands : List AsmOperand)
  /-- `.org addr`. -/
  | org (addr : Nat)
  /-- `.byte b, ...`. -/
  | bytes (values : List Nat)
  /-- A label alone. -/
  | empty
deriving DecidableEq, Repr

/-- One line of a program (R114). -/
structure AsmLine where
  label     : Option (List Char)
  statement : AsmStatement
deriving DecidableEq, Repr

/-- The address a statement starts at, when the line before it ended at `addr` (R116). DESIGN CHOICE (log 31): R116 gives `.org` no
range, and here it has none: bytes past `0xFFF` are assembled too, at the addresses they come to. -/
def AsmStatement.start (addr : Nat) : AsmStatement → Nat
  | .org a => a
  | .word _ _ | .bytes _ | .empty => addr

/-- The bytes a statement takes. -/
def AsmStatement.size : AsmStatement → Nat
  | .word _ _ => 2
  | .bytes values => values.length
  | .org _ | .empty => 0

/-- First pass: the address of every label (R114, R116). DESIGN CHOICE (log 31): a label on a `.org` line names the address the
directive sets, and a name given to two lines is listed for both, the earlier line first. -/
def asmLabels : Nat → List AsmLine → List (List Char × Nat)
  | _, [] => []
  | addr, line :: rest =>
    let here := line.statement.start addr
    (line.label.toList.map (fun name => (name, here))) ++ asmLabels (here + line.statement.size) rest

/-- A label operand stands for its address (R114). DESIGN CHOICE (log 31): R114 speaks of a label in the place of `nnn` only; here a
label may stand for the number of any operand (`nn`, `n` and the word of `DW` too) whose range its address fits, and of two labels of
one name the earlier line's counts. -/
def resolveOperand (labels : List (List Char × Nat)) : AsmOperand → Option AsmOperand
  | .label name => (labels.lookup name).map .num
  | operand => some operand

/-- The bytes of one statement. -/
def AsmStatement.emit (labels : List (List Char × Nat)) : AsmStatement → Option (List Byte)
  | .word name operands => do
    let w ← assembleWord name (← operands.mapM (resolveOperand labels))
    some [highByte w, lowByte w]
  | .bytes values => values.mapM asmByte
  | .org _ | .empty => some []

/-- Second pass: the bytes of a program with their addresses. -/
def asmEmit (labels : List (List Char × Nat)) : Nat → List AsmLine → Option (List (Nat × Byte))
  | _, [] => some []
  | addr, line :: rest => do
    let here := line.statement.start addr
    let bytes ← line.statement.emit labels
    let more ← asmEmit labels (here + line.statement.size) rest
    some ((bytes.mapIdx (fun k b => (here + k, b))) ++ more)

/-- A program's bytes with their addresses; assembly starts at `0x200` (R116). -/
def assembleProgram (lines : List AsmLine) : Option (List (Nat × Byte)) := asmEmit (asmLabels 0x200 lines) 0x200 lines

end Sys2Proof
end

