-- ==== Sys2Proof/Safety.lean ====
section
/-! DEFINITION. The terms claims are stated in: the parts of the state and what a change touches, the invariant of the machine,
what a step executes, and when a program is finished. -/

namespace Sys2Proof.Machine

/-- The parts of the state, finer than its fields: a register, a memory cell and a pixel are each a part. -/
inductive Part where
  | cfg
  | v (k : Reg)
  | pc
  | index
  | dt
  | st
  | stack
  | icount
  /-- The pixel that coordinates name, each reduced modulo the size (R55). -/
  | pixel (px py : Nat)
  | cell (a : Nat)
  /-- The key inputs still to come and the count of samples. -/
  | keyInput
  /-- The random bytes still to come and the count of draws. -/
  | rndInput
  | dispDirty
  | undefOp
deriving DecidableEq, Repr

/-- The part reads the same in both states. -/
def Part.Same (s t : State) : Part → Prop
  | .cfg => t.cfg = s.cfg
  | .v k => t.getV k = s.getV k
  | .pc => t.pc = s.pc
  | .index => t.index = s.index
  | .dt => t.dt = s.dt
  | .st => t.st = s.st
  | .stack => t.stack = s.stack
  | .icount => t.icount = s.icount
  | .pixel px py => t.getPixel px py = s.getPixel px py
  | .cell a => t.readMem a = s.readMem a
  | .keyInput => t.keyInputs = s.keyInputs ∧ t.keySamples = s.keySamples
  | .rndInput => t.rndInputs = s.rndInputs ∧ t.rndDraws = s.rndDraws
  | .dispDirty => t.dispDirty = s.dispDirty
  | .undefOp => t.undefOp = s.undefOp

/-- Every part of the state but those of `touched` reads the same before and after: the frame of a change. -/
def ChangesOnly (touched : Part → Prop) (s t : State) : Prop := ∀ p, ¬ touched p → p.Same s t

/-- The invariant of the machine: legal parameters (R8), canonical memory and framebuffer (logs 23, 24), `pc` in its range (R39),
stack entries that some call pushed (R150), and a stack within its depth (R50). -/
structure Inv (s : State) : Prop where
  cfg   : s.cfg.valid = true
  mem   : s.mem.wf s.cfg
  fb    : s.fb.wf s.cfg
  pc    : s.pc.toNat ≤ 0x1002
  stack : ∀ a ∈ s.stack, a.toNat ≤ 0x1000
  depth : ∀ d, s.cfg.stackDepth = some d → s.sp ≤ d

/-- The next Step of `s` fetches and executes `i`. -/
def Executes (s : State) (i : Instr) : Prop := ∃ w, s.fetch = .ok w ∧ decode w = i

/-- The Step of `s` faults with `f` in execution, and leaves `pc` past the instruction and everything else as it was (R137): no
register, timer, stack entry, pixel, byte of memory or count has changed. The key sample and the strobes are the Step's own. -/
def FaultsInExecution (s : State) (f : Fault) : Prop :=
  step s = .fault f ∧ (stateAfterFault s).pc = s.pc + 2 ∧
    ChangesOnly (fun p => p ∈ [.pc, .keyInput, .dispDirty, .undefOp]) s (stateAfterFault s)

/-- The result with its next state, if it has one, changed by `f`. -/
def onNext (f : State → State) : Result → Result
  | .next s => .next (f s)
  | .fault r => .fault r
  | .refused r => .refused r

/-- `pc` holds the address of a jump to itself, the end of a program by the convention of R141 (D24; log 29). -/
def finished (s : State) : Bool :=
  match s.fetch with
  | .ok w => decode w == .jpNnn (s.pc.setWidth 12)
  | .error _ => false

/-- The registers an instruction may write (R34): its destination, the block of `Fx65`, and `VF` as a flag. -/
def writesV : Instr → Reg → Bool
  | .ldVxNn x _, k | .addVxNn x _, k | .rndVxNn x _, k => k == x
  | .ldVxVy x _, k | .orVxVy x _, k | .andVxVy x _, k | .xorVxVy x _, k => k == x
  | .addVxVy x _, k | .subVxVy x _, k | .shrVx x _, k | .subnVxVy x _, k | .shlVx x _, k => k == x || k == vf
  | .drwVxVyN _ _ _, k => k == vf
  | .ldVxDt x, k | .ldVxK x, k => k == x
  | .ldVxMem x, k => decide (k ≤ x)
  | .cls, _ | .ret, _ | .nop _, _ => false
  | .jpNnn _, _ | .callNnn _, _ | .jpV0Nnn _, _ | .ldINnn _, _ => false
  | .seVxNn _ _, _ | .sneVxNn _ _, _ | .seVxVy _ _, _ | .sneVxVy _ _, _ | .skpVx _, _ | .sknpVx _, _ => false
  | .ldDtVx _, _ | .ldStVx _, _ | .addIVx _, _ | .ldFVx _, _ | .ldBVx _, _ | .ldMemVx _, _ => false

/-- The instructions that look at the key levels (R57, R140). -/
def readsKeys : Instr → Bool
  | .skpVx _ | .sknpVx _ | .ldVxK _ => true
  | .cls | .ret | .nop _ | .jpNnn _ | .callNnn _ | .jpV0Nnn _ | .ldINnn _
  | .seVxNn _ _ | .sneVxNn _ _ | .seVxVy _ _ | .sneVxVy _ _
  | .ldVxNn _ _ | .addVxNn _ _ | .rndVxNn _ _ | .ldVxVy _ _ | .orVxVy _ _ | .andVxVy _ _ | .xorVxVy _ _
  | .addVxVy _ _ | .subVxVy _ _ | .shrVx _ _ | .subnVxVy _ _ | .shlVx _ _ | .drwVxVyN _ _ _
  | .ldVxDt _ | .ldDtVx _ | .ldStVx _ | .addIVx _ | .ldFVx _ | .ldBVx _ | .ldMemVx _ | .ldVxMem _ => false

end Sys2Proof.Machine
end

