-- ==== Sys2Proof/Certificates/Slice0/Obligations.lean ====
section
/-! DEFINITION. The statements for the provers. `exec` runs on the state after the advance, so its `s.pc` is the fetch address plus 2
(R18, R133). Every frame is said with `ChangesOnly` over all parts of the state (Safety.lean). -/

open Sys2Proof Sys2Proof.Machine

/-! ## Control transfer -/

/-- R150: `00EE` pops the most recent entry into `pc` and changes nothing else; on an empty stack the Step faults and leaves `pc` alone
advanced (R137). That the timers and the counter stand still is R137 (c), the spec's decision D11 (log 16, DESIGN CHOICE). -/
def Obligations.ReturnPopsTheMostRecentEntry : Prop :=
  decode 0x00EE = .ret ∧
  (∀ s : State, s.sp ≠ 0 → ∃ t, exec .ret s = .next t ∧
    some t.pc = s.stackEntry (s.sp - 1) ∧ t.sp = s.sp - 1 ∧ (∀ k < t.sp, t.stackEntry k = s.stackEntry k) ∧
    ChangesOnly (fun p => p ∈ [Part.pc, Part.stack]) s t) ∧
  (∀ s : State, Executes s .ret → s.sp = 0 → FaultsInExecution s .stackUnderflow)

/-- R151, whole: `1nnn` puts `nnn` into `pc`, unchecked, and changes nothing else. -/
def Obligations.JumpPutsTheAddressIntoPc : Prop :=
  ∀ nnn : Address, decode (BitVec.ofNat 16 (0x1000 + nnn.toNat)) = .jpNnn nnn ∧
    ∀ s : State, ∃ t, exec (.jpNnn nnn) s = .next t ∧ t.pc.toNat = nnn.toNat ∧
      ChangesOnly (fun p => p ∈ [Part.pc]) s t

/-- R152: `2nnn` pushes the advanced `pc` and jumps; with `STACK_DEPTH` entries in use the Step faults, the stack unchanged and `pc` alone
advanced (R137). That the timers and the counter stand still is R137 (c), the spec's decision D11 (log 16, DESIGN CHOICE). -/
def Obligations.CallPushesTheAdvancedPc : Prop :=
  ∀ nnn : Address, decode (BitVec.ofNat 16 (0x2000 + nnn.toNat)) = .callNnn nnn ∧
    (∀ s : State, (∀ d, s.cfg.stackDepth = some d → s.sp < d) → ∃ t, exec (.callNnn nnn) s = .next t ∧
      t.stackEntry s.sp = some s.pc ∧ t.sp = s.sp + 1 ∧ (∀ k < s.sp, t.stackEntry k = s.stackEntry k) ∧
      t.pc.toNat = nnn.toNat ∧ ChangesOnly (fun p => p ∈ [Part.pc, Part.stack]) s t) ∧
    (∀ s : State, Executes s (.callNnn nnn) → s.cfg.stackDepth = some s.sp → FaultsInExecution s .stackOverflow)

/-- R154, whole: `Bnnn` puts `V0 + nnn`, masked to 12 bits, into `pc`. -/
def Obligations.OffsetJumpMasksTheSum : Prop :=
  ∀ nnn : Address, decode (BitVec.ofNat 16 (0xB000 + nnn.toNat)) = .jpV0Nnn nnn ∧
    ∀ s : State, ∃ t, exec (.jpV0Nnn nnn) s = .next t ∧ t.pc.toNat = ((s.getV 0).toNat + nnn.toNat) % 4096 ∧
      ChangesOnly (fun p => p ∈ [Part.pc]) s t

/-- R155 and R156, whole: `3xnn` skips exactly when `V[x] = nn`, `4xnn` exactly when not. -/
def Obligations.ImmediateSkipsCompareRegisterAndByte : Prop :=
  ∀ (x : Reg) (nn : Byte),
    decode (BitVec.ofNat 16 (0x3000 + 0x100 * x.val + nn.toNat)) = .seVxNn x nn ∧
    decode (BitVec.ofNat 16 (0x4000 + 0x100 * x.val + nn.toNat)) = .sneVxNn x nn ∧
    ∀ s : State, ∃ t u, exec (.seVxNn x nn) s = .next t ∧ exec (.sneVxNn x nn) s = .next u ∧
      t.pc = (if (s.getV x).toNat = nn.toNat then s.pc + 2 else s.pc) ∧
      u.pc = (if (s.getV x).toNat = nn.toNat then s.pc else s.pc + 2) ∧
      ChangesOnly (fun p => p ∈ [Part.pc]) s t ∧ ChangesOnly (fun p => p ∈ [Part.pc]) s u

/-- R157 and R158, whole: `5xy0` skips exactly when the registers are equal, `9xy0` exactly when they differ. -/
def Obligations.RegisterSkipsCompareTwoRegisters : Prop :=
  ∀ x y : Reg,
    decode (BitVec.ofNat 16 (0x5000 + 0x100 * x.val + 0x10 * y.val)) = .seVxVy x y ∧
    decode (BitVec.ofNat 16 (0x9000 + 0x100 * x.val + 0x10 * y.val)) = .sneVxVy x y ∧
    ∀ s : State, ∃ t u, exec (.seVxVy x y) s = .next t ∧ exec (.sneVxVy x y) s = .next u ∧
      t.pc = (if (s.getV x).toNat = (s.getV y).toNat then s.pc + 2 else s.pc) ∧
      u.pc = (if (s.getV x).toNat = (s.getV y).toNat then s.pc else s.pc + 2) ∧
      ChangesOnly (fun p => p ∈ [Part.pc]) s t ∧ ChangesOnly (fun p => p ∈ [Part.pc]) s u

/-! ## Load, arithmetic, logic, shift, random -/

/-- R171 and R172, whole: `6xnn` loads, `7xnn` adds modulo 256; neither writes `VF` as a flag. -/
def Obligations.ImmediateLoadAndAddWriteOnlyTheRegister : Prop :=
  ∀ (x : Reg) (nn : Byte),
    decode (BitVec.ofNat 16 (0x6000 + 0x100 * x.val + nn.toNat)) = .ldVxNn x nn ∧
    decode (BitVec.ofNat 16 (0x7000 + 0x100 * x.val + nn.toNat)) = .addVxNn x nn ∧
    ∀ s : State, ∃ t u, exec (.ldVxNn x nn) s = .next t ∧ exec (.addVxNn x nn) s = .next u ∧
      (t.getV x).toNat = nn.toNat ∧ (u.getV x).toNat = ((s.getV x).toNat + nn.toNat) % 256 ∧
      ChangesOnly (fun p => p ∈ [Part.v x]) s t ∧ ChangesOnly (fun p => p ∈ [Part.v x]) s u

/-- R173 to R176, whole: copy and bitwise logic write the destination and no flag. -/
def Obligations.CopyAndLogicWriteOnlyTheDestination : Prop :=
  ∀ x y : Reg,
    decode (BitVec.ofNat 16 (0x8000 + 0x100 * x.val + 0x10 * y.val)) = .ldVxVy x y ∧
    decode (BitVec.ofNat 16 (0x8001 + 0x100 * x.val + 0x10 * y.val)) = .orVxVy x y ∧
    decode (BitVec.ofNat 16 (0x8002 + 0x100 * x.val + 0x10 * y.val)) = .andVxVy x y ∧
    decode (BitVec.ofNat 16 (0x8003 + 0x100 * x.val + 0x10 * y.val)) = .xorVxVy x y ∧
    ∀ s : State,
      (∃ t, exec (.ldVxVy x y) s = .next t ∧ t.getV x = s.getV y ∧ ChangesOnly (fun p => p ∈ [Part.v x]) s t) ∧
      (∃ t, exec (.orVxVy x y) s = .next t ∧
        (∀ j < 8, (t.getV x).getLsbD j = ((s.getV x).getLsbD j || (s.getV y).getLsbD j)) ∧
        ChangesOnly (fun p => p ∈ [Part.v x]) s t) ∧
      (∃ t, exec (.andVxVy x y) s = .next t ∧
        (∀ j < 8, (t.getV x).getLsbD j = ((s.getV x).getLsbD j && (s.getV y).getLsbD j)) ∧
        ChangesOnly (fun p => p ∈ [Part.v x]) s t) ∧
      (∃ t, exec (.xorVxVy x y) s = .next t ∧
        (∀ j < 8, (t.getV x).getLsbD j = ((s.getV x).getLsbD j ^^ (s.getV y).getLsbD j)) ∧
        ChangesOnly (fun p => p ∈ [Part.v x]) s t)

/-- R177: the sum modulo 256, and `VF` the carry; with `x = 15` the sum remains (R170 (b)). That both operands are the old values with
`x = 15` or `y = 15` too is R170 (a), the spec's decision D10 (log 13, DESIGN CHOICE). -/
def Obligations.AddSetsCarryThenSum : Prop :=
  ∀ x y : Reg, decode (BitVec.ofNat 16 (0x8004 + 0x100 * x.val + 0x10 * y.val)) = .addVxVy x y ∧
    ∀ s : State, ∃ t, exec (.addVxVy x y) s = .next t ∧
      (t.getV x).toNat = ((s.getV x).toNat + (s.getV y).toNat) % 256 ∧
      (x ≠ vf → t.getV vf = if 255 < (s.getV x).toNat + (s.getV y).toNat then 1 else 0) ∧
      ChangesOnly (fun p => p ∈ [Part.v x, Part.v vf]) s t

/-- R178 and R180: the difference modulo 256, and `VF` 1 exactly when no borrow occurred; with `x = 15` the difference remains (R170 (b)).
That both operands are the old values with `x = 15` or `y = 15` too is R170 (a), the spec's decision D10 (log 13, DESIGN CHOICE). -/
def Obligations.SubtractionsSetNotBorrowThenDifference : Prop :=
  ∀ x y : Reg,
    decode (BitVec.ofNat 16 (0x8005 + 0x100 * x.val + 0x10 * y.val)) = .subVxVy x y ∧
    decode (BitVec.ofNat 16 (0x8007 + 0x100 * x.val + 0x10 * y.val)) = .subnVxVy x y ∧
    ∀ s : State,
      (∃ t, exec (.subVxVy x y) s = .next t ∧
        ((t.getV x).toNat : Int) = ((s.getV x).toNat - (s.getV y).toNat : Int) % 256 ∧
        (x ≠ vf → t.getV vf = if (s.getV x).toNat < (s.getV y).toNat then 0 else 1) ∧
        ChangesOnly (fun p => p ∈ [Part.v x, Part.v vf]) s t) ∧
      (∃ t, exec (.subnVxVy x y) s = .next t ∧
        ((t.getV x).toNat : Int) = ((s.getV y).toNat - (s.getV x).toNat : Int) % 256 ∧
        (x ≠ vf → t.getV vf = if (s.getV y).toNat < (s.getV x).toNat then 0 else 1) ∧
        ChangesOnly (fun p => p ∈ [Part.v x, Part.v vf]) s t)

/-- R179 and R181: `V[x]` shifted by one, `VF` the bit shifted out, whatever `y` is; with `x = 15` the shifted value remains (R170 (b)).
That with `x = 15` it is the old value that is shifted, not the flag, is R170 (a), the spec's decision D10 (log 13, DESIGN CHOICE). -/
def Obligations.ShiftsSetTheBitShiftedOut : Prop :=
  ∀ x y : Reg,
    decode (BitVec.ofNat 16 (0x8006 + 0x100 * x.val + 0x10 * y.val)) = .shrVx x y ∧
    decode (BitVec.ofNat 16 (0x800E + 0x100 * x.val + 0x10 * y.val)) = .shlVx x y ∧
    ∀ s : State,
      (∃ t, exec (.shrVx x y) s = .next t ∧ (t.getV x).toNat = (s.getV x).toNat / 2 ∧
        (x ≠ vf → (t.getV vf).toNat = (s.getV x).toNat % 2) ∧ ChangesOnly (fun p => p ∈ [Part.v x, Part.v vf]) s t) ∧
      (∃ t, exec (.shlVx x y) s = .next t ∧ (t.getV x).toNat = (s.getV x).toNat * 2 % 256 ∧
        (x ≠ vf → (t.getV vf).toNat = (s.getV x).toNat / 128) ∧ ChangesOnly (fun p => p ∈ [Part.v x, Part.v vf]) s t)

/-- R182 with R58: `Cxnn` masks the next byte of the random source and consumes one. That the source is a list of the host's bytes and a
count of draws in State is the model's choice (log 2, DESIGN CHOICE); nothing is said of the byte once the list is used up: there it is
free. -/
def Obligations.RandomMasksAndConsumesOneByte : Prop :=
  ∀ (x : Reg) (nn : Byte), decode (BitVec.ofNat 16 (0xC000 + 0x100 * x.val + nn.toNat)) = .rndVxNn x nn ∧
    ∀ s : State, ∃ t, exec (.rndVxNn x nn) s = .next t ∧ t.getV x = (s.rnd &&& nn) ∧
      (∀ b rest, s.rndInputs = b :: rest → s.rnd = b) ∧
      t.rndInputs = s.rndInputs.tail ∧ t.rndDraws = s.rndDraws + 1 ∧
      ChangesOnly (fun p => p ∈ [Part.v x, Part.rndInput]) s t

/-! ## Index register and memory -/

/-- R200 and R202, whole: `Annn` and `Fx29` set `I`, the glyph number not masked. -/
def Obligations.IndexLoadsSetTheIndex : Prop :=
  (∀ nnn : Address, decode (BitVec.ofNat 16 (0xA000 + nnn.toNat)) = .ldINnn nnn ∧
    ∀ s : State, ∃ t, exec (.ldINnn nnn) s = .next t ∧ t.index.toNat = nnn.toNat ∧
      ChangesOnly (fun p => p ∈ [Part.index]) s t) ∧
  (∀ x : Reg, decode (BitVec.ofNat 16 (0xF029 + 0x100 * x.val)) = .ldFVx x ∧
    ∀ s : State, ∃ t, exec (.ldFVx x) s = .next t ∧ t.index.toNat = 0x050 + 5 * (s.getV x).toNat ∧
      ChangesOnly (fun p => p ∈ [Part.index]) s t)

/-- `Fx1E` adds `V[x]` to `I`, never faults and writes no flag. That the sum is reduced modulo 65536 is the spec's decision D6 on the
width of `I` (log 11). -/
def Obligations.AddToIndexWrapsAtSixteenBits : Prop :=
  ∀ x : Reg, decode (BitVec.ofNat 16 (0xF01E + 0x100 * x.val)) = .addIVx x ∧
    ∀ s : State, ∃ t, exec (.addIVx x) s = .next t ∧ t.index.toNat = (s.index.toNat + (s.getV x).toNat) % 65536 ∧
      ChangesOnly (fun p => p ∈ [Part.index]) s t

/-- R204: `Fx33` stores hundreds, tens and ones at `I`, `I + 1`, `I + 2`; if one of them is out of memory the Step faults with the first
such address and stores nothing. That this Step leaves `pc` advanced is R137; that the timers and the counter stand still is R137 (c),
the spec's decision D11 (log 16, DESIGN CHOICE). -/
def Obligations.DecimalStoreWritesThreeDigits : Prop :=
  ∀ x : Reg, decode (BitVec.ofNat 16 (0xF033 + 0x100 * x.val)) = .ldBVx x ∧
    (∀ s : State, s.index.toNat + 2 ≤ 0xFFF → ∃ t, exec (.ldBVx x) s = .next t ∧
      (t.readMem s.index.toNat).toNat = (s.getV x).toNat / 100 ∧
      (t.readMem (s.index.toNat + 1)).toNat = (s.getV x).toNat / 10 % 10 ∧
      (t.readMem (s.index.toNat + 2)).toNat = (s.getV x).toNat % 10 ∧
      ChangesOnly (fun p => p ∈ [Part.cell s.index.toNat, Part.cell (s.index.toNat + 1), Part.cell (s.index.toNat + 2)]) s t) ∧
    (∀ s : State, Executes s (.ldBVx x) → 0xFFF < s.index.toNat + 2 →
      FaultsInExecution s (.addressOutOfRange (max s.index.toNat 0x1000)))

/-- R205: `Fx55` stores `V[k]` at `I + k` for `k = 0..x`; if one address is out of memory the Step faults and stores nothing. That this
Step leaves `pc` advanced is R137; that the timers and the counter stand still is R137 (c), the spec's decision D11 (log 16, DESIGN
CHOICE). -/
def Obligations.BlockStoreWritesTheRegisters : Prop :=
  ∀ x : Reg, decode (BitVec.ofNat 16 (0xF055 + 0x100 * x.val)) = .ldMemVx x ∧
    (∀ s : State, s.index.toNat + x.val ≤ 0xFFF → ∃ t, exec (.ldMemVx x) s = .next t ∧
      (∀ k ≤ x, t.readMem (s.index.toNat + k.val) = s.getV k) ∧
      ChangesOnly (fun p => ∃ k ≤ x, p = Part.cell (s.index.toNat + k.val)) s t) ∧
    (∀ s : State, Executes s (.ldMemVx x) → 0xFFF < s.index.toNat + x.val →
      FaultsInExecution s (.addressOutOfRange (max s.index.toNat 0x1000)))

/-- R206: `Fx65` loads `V[k]` from `I + k` for `k = 0..x`; if one address is out of memory the Step faults and loads nothing. That this
Step leaves `pc` advanced is R137; that the timers and the counter stand still is R137 (c), the spec's decision D11 (log 16, DESIGN
CHOICE). -/
def Obligations.BlockLoadReadsTheRegisters : Prop :=
  ∀ x : Reg, decode (BitVec.ofNat 16 (0xF065 + 0x100 * x.val)) = .ldVxMem x ∧
    (∀ s : State, s.index.toNat + x.val ≤ 0xFFF → ∃ t, exec (.ldVxMem x) s = .next t ∧
      (∀ k ≤ x, t.getV k = s.readMem (s.index.toNat + k.val)) ∧
      ChangesOnly (fun p => ∃ k ≤ x, p = Part.v k) s t) ∧
    (∀ s : State, Executes s (.ldVxMem x) → 0xFFF < s.index.toNat + x.val →
      FaultsInExecution s (.addressOutOfRange (max s.index.toNat 0x1000)))

/-- Round trip of R207: what `Fx55` stored, `Fx65` with the same `x` loads again from any state that has the same `I` and the same
bytes there, whatever its registers hold. -/
def Obligations.BlockLoadRestoresWhatBlockStoreSaved : Prop :=
  ∀ (x : Reg) (s t u w : State), exec (.ldMemVx x) s = .next t → u.index = t.index →
    (∀ k ≤ x, u.readMem (t.index.toNat + k.val) = t.readMem (t.index.toNat + k.val)) →
    exec (.ldVxMem x) u = .next w → ∀ k ≤ x, w.getV k = s.getV k

/-- R87: a store is seen by the very next fetch. When `Fx55` or `Fx33` stored over the two bytes the next Step fetches, that Step
fetches what was stored. -/
def Obligations.StoredInstructionIsFetchedNext : Prop :=
  (∀ (x j k : Reg) (s t : State), Executes s (.ldMemVx x) → step s = .next t → k.val = j.val + 1 → k ≤ x →
    s.pc.toNat + 2 = s.index.toNat + j.val → t.fetch = .ok (wordOfBytes (s.getV j) (s.getV k))) ∧
  (∀ (x : Reg) (s t : State), Executes s (.ldBVx x) → step s = .next t →
    (s.pc.toNat + 2 = s.index.toNat → ∃ w, t.fetch = .ok w ∧
      w.toNat = (s.getV x).toNat / 100 * 256 + (s.getV x).toNat / 10 % 10) ∧
    (s.pc.toNat + 2 = s.index.toNat + 1 → ∃ w, t.fetch = .ok w ∧
      w.toNat = (s.getV x).toNat / 10 % 10 * 256 + (s.getV x).toNat % 10))

/-! ## Display -/

/-- R220, whole: `00E0` puts 0 into every cell, raises `disp_dirty`, and changes nothing else. -/
def Obligations.ClearScreenZeroesEveryPixel : Prop :=
  decode 0x00E0 = .cls ∧
  ∀ s : State, ∃ t, exec .cls s = .next t ∧ (∀ px py, t.getPixel px py = false) ∧ t.dispDirty = true ∧
    ChangesOnly (fun p => p = Part.dispDirty ∨ ∃ px py, p = Part.pixel px py) s t

/-- R221 and R222, for every framebuffer size. `hits` lists the cells under the 1 bits in scan order, each wrapped on its own;
a cell ends toggled once for each time it is listed; `VF` is 1 exactly when some listed cell was 1 when its turn came. Coordinates
are the old register values, with `x = 15` or `y = 15` too (the spec's decision D10, log 13). A sprite that leaves memory faults,
with nothing drawn and `VF` not written; `n = 0` reads nothing and never faults. That the faulting Step leaves `pc` advanced is R137; that
the timers and the counter stand still is R137 (c), the spec's decision D11 (log 16, DESIGN CHOICE). -/
def Obligations.DrawTogglesTheCellsOfTheScan : Prop :=
  ∀ (x y : Reg) (n : Fin 16),
    decode (BitVec.ofNat 16 (0xD000 + 0x100 * x.val + 0x10 * y.val + n.val)) = .drwVxVyN x y n ∧
    (∀ s : State, (n.val = 0 ∨ s.index.toNat + n.val - 1 ≤ 0xFFF) →
      let hits : List Pixel := (List.range n.val).flatMap (fun row => (List.range 8).filterMap (fun col =>
        if (s.readMem (s.index.toNat + row)).getLsbD (7 - col)
        then some (((s.getV x).toNat + col) % s.cfg.fbWidth, ((s.getV y).toNat + row) % s.cfg.fbHeight) else none))
      ∃ t, exec (.drwVxVyN x y n) s = .next t ∧
        (∀ px py, t.getPixel px py =
          (s.getPixel px py ^^ decide (hits.count (px % s.cfg.fbWidth, py % s.cfg.fbHeight) % 2 = 1))) ∧
        (t.getV vf = 0 ∨ t.getV vf = 1) ∧
        (t.getV vf = 1 ↔ ∃ pre p post, hits = pre ++ p :: post ∧
          (s.getPixel p.1 p.2 ^^ decide (pre.count p % 2 = 1)) = true) ∧
        ChangesOnly (fun p => p = Part.v vf ∨ ∃ px py, p = Part.pixel px py) s t) ∧
    (∀ s : State, Executes s (.drwVxVyN x y n) → n.val ≠ 0 → 0xFFF < s.index.toNat + n.val - 1 →
      FaultsInExecution s (.addressOutOfRange (max s.index.toNat 0x1000)))

/-- R223: on a framebuffer of at least 8 columns and `n` rows each cell under a 1 bit is toggled exactly once, no other cell changes,
and `VF` is 1 exactly when some cell under a 1 bit held 1 before. With `x = 15` or `y = 15` the coordinate is the old `VF`: that is
R222 (e), the spec's decision D10 (log 13, DESIGN CHOICE). -/
def Obligations.DrawOnAWideFramebufferIsOneXor : Prop :=
  ∀ (x y : Reg) (n : Fin 16) (s t : State), 8 ≤ s.cfg.fbWidth → n.val ≤ s.cfg.fbHeight →
    exec (.drwVxVyN x y n) s = .next t →
    (∀ px py, t.getPixel px py ≠ s.getPixel px py ↔ ∃ row < n.val, ∃ col < 8,
      (s.readMem (s.index.toNat + row)).getLsbD (7 - col) = true ∧
      ((s.getV x).toNat + col) % s.cfg.fbWidth = px % s.cfg.fbWidth ∧
      ((s.getV y).toNat + row) % s.cfg.fbHeight = py % s.cfg.fbHeight) ∧
    (t.getV vf = 1 ↔ ∃ row < n.val, ∃ col < 8,
      (s.readMem (s.index.toNat + row)).getLsbD (7 - col) = true ∧
      s.getPixel ((s.getV x).toNat + col) ((s.getV y).toNat + row) = true)

/-- R224 (a), the collision law: drawing the same sprite at the same place twice restores every pixel, and the second draw's `VF` is 1
exactly when the first draw set a cell. The second draw names registers that hold the coordinates the first one used, so `VF` as a
coordinate of either draw is covered: that a draw takes the old `VF` there is R222 (e), the spec's decision D10 (log 13, DESIGN
CHOICE). -/
def Obligations.DrawingTwiceRestoresTheFramebuffer : Prop :=
  ∀ (x y x' y' : Reg) (n : Fin 16) (s t : State), 8 ≤ s.cfg.fbWidth → n.val ≤ s.cfg.fbHeight →
    exec (.drwVxVyN x y n) s = .next t → t.getV x' = s.getV x → t.getV y' = s.getV y →
    ∃ u, exec (.drwVxVyN x' y' n) t = .next u ∧ (∀ px py, u.getPixel px py = s.getPixel px py) ∧
      (u.getV vf = 1 ↔ ∃ row < n.val, ∃ col < 8,
        (s.readMem (s.index.toNat + row)).getLsbD (7 - col) = true ∧
        s.getPixel ((s.getV x).toNat + col) ((s.getV y).toNat + row) = false)

/-- R55: clearing, toggling and reading the grid; coordinates are reduced modulo the size, not clipped. -/
def Obligations.FramebufferOperationsWrapAndToggle : Prop :=
  ∀ (s : State) (px py qx qy : Nat),
    s.clearFb.getPixel px py = false ∧
    s.getPixel px py = s.getPixel (px % s.cfg.fbWidth) (py % s.cfg.fbHeight) ∧
    (s.togglePixel px py).getPixel qx qy =
      (if qx % s.cfg.fbWidth = px % s.cfg.fbWidth ∧ qy % s.cfg.fbHeight = py % s.cfg.fbHeight
       then !s.getPixel qx qy else s.getPixel qx qy)

/-! ## Keys, timers, no-op -/

/-- `Ex9E` skips exactly when the key numbered by the whole value of `V[x]` is pressed, `ExA1` exactly when not, so in every state one
of the two skips. That a number of 16 or more is not pressed is the spec's decision D13 (log 15). The levels are the host's next
listed vector; nothing is said of them once the list is used up (log 1). -/
def Obligations.KeySkipsTestTheKeyOfTheRegister : Prop :=
  ∀ x : Reg,
    decode (BitVec.ofNat 16 (0xE09E + 0x100 * x.val)) = .skpVx x ∧
    decode (BitVec.ofNat 16 (0xE0A1 + 0x100 * x.val)) = .sknpVx x ∧
    ∀ s : State, (∀ k rest, s.keyInputs = k :: rest → s.keys = k) ∧
      ∃ t u, exec (.skpVx x) s = .next t ∧ exec (.sknpVx x) s = .next u ∧
        t.pc = (if (s.getV x).toNat ≤ 15 ∧ s.keys.getLsbD (s.getV x).toNat = true then s.pc + 2 else s.pc) ∧
        u.pc = (if (s.getV x).toNat ≤ 15 ∧ s.keys.getLsbD (s.getV x).toNat = true then s.pc else s.pc + 2) ∧
        ChangesOnly (fun p => p ∈ [Part.pc]) s t ∧ ChangesOnly (fun p => p ∈ [Part.pc]) s u

/-- R243, whole: with no key down `Fx0A` rewinds `pc` by 2 and changes nothing else; otherwise it stores the least pressed key. -/
def Obligations.KeyWaitRearmsOrStoresTheLeastKey : Prop :=
  ∀ x : Reg, decode (BitVec.ofNat 16 (0xF00A + 0x100 * x.val)) = .ldVxK x ∧
    ∀ s : State,
      (s.keys = 0 → ∃ t, exec (.ldVxK x) s = .next t ∧ t.pc = s.pc - 2 ∧ ChangesOnly (fun p => p ∈ [Part.pc]) s t) ∧
      (s.keys ≠ 0 → ∃ t, exec (.ldVxK x) s = .next t ∧ (t.getV x).toNat ≤ 15 ∧
        s.keys.getLsbD (t.getV x).toNat = true ∧ (∀ j < (t.getV x).toNat, s.keys.getLsbD j = false) ∧
        ChangesOnly (fun p => p ∈ [Part.v x]) s t)

/-- R244, R245 and R246, whole: reading and setting the timers, and what the tick of the same Step leaves. -/
def Obligations.TimerAccessAndTheTickOfTheSameStep : Prop :=
  ∀ x : Reg,
    decode (BitVec.ofNat 16 (0xF007 + 0x100 * x.val)) = .ldVxDt x ∧
    decode (BitVec.ofNat 16 (0xF015 + 0x100 * x.val)) = .ldDtVx x ∧
    decode (BitVec.ofNat 16 (0xF018 + 0x100 * x.val)) = .ldStVx x ∧
    (∀ s : State,
      (∃ t, exec (.ldVxDt x) s = .next t ∧ t.getV x = s.dt ∧ ChangesOnly (fun p => p ∈ [Part.v x]) s t) ∧
      (∃ t, exec (.ldDtVx x) s = .next t ∧ t.dt = s.getV x ∧ ChangesOnly (fun p => p ∈ [Part.dt]) s t) ∧
      (∃ t, exec (.ldStVx x) s = .next t ∧ t.st = s.getV x ∧ ChangesOnly (fun p => p ∈ [Part.st]) s t)) ∧
    (∀ s : State, Executes s (.ldVxDt x) → ∃ t, step s = .next t ∧ t.getV x = s.dt ∧ t.dt.toNat = s.dt.toNat - 1) ∧
    (∀ s : State, Executes s (.ldDtVx x) → ∃ t, step s = .next t ∧ t.dt.toNat = (s.getV x).toNat - 1) ∧
    (∀ s : State, Executes s (.ldStVx x) → ∃ t, step s = .next t ∧ t.st.toNat = (s.getV x).toNat - 1)

/-- R260: every word that selects no defined row is the no-op, which raises `undef_op` and changes nothing else; its Step advances `pc` by
2, ticks the timers and counts. That `5xyN` and `9xyN` with `N` not 0 are among them is the spec's decision D14 (log 14, DESIGN CHOICE).
That `disp_dirty` is 0 after it, since a strobe lasts one Step and `00E0` alone raises this one, is R59 (b), the spec's decision D15
(log 3, DESIGN CHOICE). -/
def Obligations.UndefinedWordsAreNoOps : Prop :=
  (∀ w : Word, isDefinedWord w = false → decode w = .nop w) ∧
  (∀ (w : Word) (s : State), ∃ t, exec (.nop w) s = .next t ∧ t.undefOp = true ∧
    ChangesOnly (fun p => p ∈ [Part.undefOp]) s t) ∧
  (∀ (w : Word) (s : State), isDefinedWord w = false → s.fetch = .ok w → ∃ t, step s = .next t ∧
    t.pc = s.pc + 2 ∧ t.dt.toNat = s.dt.toNat - 1 ∧ t.st.toNat = s.st.toNat - 1 ∧ t.icount = s.icount + 1 ∧
    t.undefOp = true ∧ t.dispDirty = false ∧
    ChangesOnly (fun p => p ∈ [Part.pc, Part.dt, Part.st, Part.icount, Part.keyInput, Part.undefOp, Part.dispDirty]) s t)

/-! ## Encoding -/

/-- Decoding the encoding of a well-formed instruction gives it back, with every operand at every value. -/
def Obligations.DecodeInvertsEncode : Prop :=
  ∀ i : Instr, i.wellFormed = true → decode (encode i) = i ∧ decodeBytes (encodeBytes i) = .ok (i, [])

/-- Encoding the decoding of a word gives it back, and what is decoded is well-formed: no word loses a bit. The no-op's word and
the ignored `y` of a shift are kept for that (log 22, DESIGN CHOICE). -/
def Obligations.EncodeInvertsDecode : Prop :=
  ∀ w : Word, encode (decode w) = w ∧ (decode w).wellFormed = true

/-- R106, whole: no word selects two of the 34 defined rows; the decode tree gives a word the instruction of the row it selects; and
the no-op is every word that selects none. -/
def Obligations.DecodeAgreesWithTheOpcodeTable : Prop :=
  opcodeRows.length = 34 ∧
  opcodeRows.Pairwise (fun r r' => ∀ w : Word, ¬(w &&& r.mask = r.value ∧ w &&& r'.mask = r'.value)) ∧
  (∀ w : Word, ∀ r ∈ opcodeRows, w &&& r.mask = r.value ↔ (decode w).mnemonic = r.mnemonic) ∧
  (∀ w : Word, (∀ r ∈ opcodeRows, w &&& r.mask ≠ r.value) ↔ decode w = .nop w)

/-- Words written out from the opcode table decode to the instructions they stand for, one for each format and family, and the bytes
of `8AB4` are `8A B4` in address order (R101). That `5121` is a no-op is the spec's decision D14 (log 14, DESIGN CHOICE). -/
def Obligations.SampleWordsDecode : Prop :=
  decode 0b0000000011100000 = .cls ∧
  decode 0b0010101010111100 = .callNnn 0xABC ∧
  decode 0b0100101000010000 = .sneVxNn 10 0x10 ∧
  decode 0b1101010100110011 = .drwVxVyN 5 3 3 ∧
  decodeBytes [0x8A, 0xB4] = .ok (.addVxVy 10 11, []) ∧
  decode 0b1110001010011110 = .skpVx 2 ∧
  decode 0b1111001001100101 = .ldVxMem 2 ∧
  decode 0b0101000100100001 = .nop 0x5121

/-- Assembling what a word disassembles to gives the word back (R117), every word of the 65 536, undefined ones and shifts with a
`y` included. The notation is the spec's decision D17 (log 28). -/
def Obligations.AssemblingADisassemblyGivesTheWord : Prop :=
  ∀ w : Word, assembleWord (disassemble w).1 (disassemble w).2 = some w

/-- The two words the host probes with mean what they say: a 16-bit table word is decoded as that word, and a word stored where the
next fetch reads is fetched, its high byte at `pc` (R74, R101), with no other byte and nothing else changed
(log 21, DESIGN CHOICE). -/
def Obligations.TableWordIsDecodedAndFetched : Prop :=
  ∀ (s : State) (w : Word), decodeTableWord 16 w.toNat = some (decode w) ∧
    (s.pc.toNat ≤ 0xFFE → (s.withFetchWord 16 w.toNat).fetch = .ok w ∧
      (s.withFetchWord 16 w.toNat).readMem s.pc.toNat = w.extractLsb' 8 8 ∧
      ChangesOnly (fun p => p ∈ [.cell s.pc.toNat, .cell (s.pc.toNat + 1)]) s (s.withFetchWord 16 w.toNat))

/-! ## The Step -/

/-- A step runs the decoded instruction: when the two bytes at `pc` decode to `i`, the step is `exec` of `i` on the state whose `pc` is
past the instruction and whose strobes are down; a next state then has both timers down by one unless zero, the count up by one and
the key sample used; a fault or a refusal is passed on as it is. Choices: the strobes start each Step at 0 (R59; the spec's decisions D15
and D23, log 3, DESIGN CHOICE), the count (R136; its decision D16, log 25, DESIGN CHOICE), one key sample a Step (R57; its decision D26,
log 27, DESIGN CHOICE) taken from the host's list (log 1, DESIGN CHOICE). -/
def Obligations.StepRunsTheDecodedInstruction : Prop :=
  ∀ (i : Instr) (s : State), s.pc.toNat ≤ 0xFFE →
    decodeBytes [s.readMem s.pc.toNat, s.readMem (s.pc.toNat + 1)] = .ok (i, []) →
    let ready : State := { s with pc := s.pc + 2, dispDirty := false, undefOp := false }
    Executes s i ∧
    step s = match exec i ready with
      | .next m => .next { m with
          dt := if m.dt = 0 then 0 else m.dt - 1, st := if m.st = 0 then 0 else m.st - 1, icount := m.icount + 1,
          keyInputs := m.keyInputs.tail, keySamples := m.keySamples + 1 }
      | .fault f => .fault f
      | .refused r => .refused r

/-- R131, whole: the fetch reads the byte at `pc` as the high one, faults where one of the two lies outside memory, and then nothing has
changed. The inputs and the strobes of the Step, which are no state of the core, are left out of that (logs 3, 27). -/
def Obligations.FetchReadsTwoBytesOrFaults : Prop :=
  ∀ s : State,
    (s.pc.toNat < 0xFFF → ∃ w, s.fetch = .ok w ∧
      w.toNat = 256 * (s.readMem s.pc.toNat).toNat + (s.readMem (s.pc.toNat + 1)).toNat) ∧
    (s.pc.toNat = 0xFFF → step s = .fault (.addressOutOfRange 0x1000)) ∧
    (0xFFF < s.pc.toNat → step s = .fault (.addressOutOfRange s.pc.toNat)) ∧
    (0xFFF ≤ s.pc.toNat → ChangesOnly (fun p => p ∈ [.keyInput, .dispDirty, .undefOp]) s (stateAfterFault s))

/-- R135, whole: after a dispatch that did not fault, whatever the instruction, each timer is one less than the dispatch left it, and
zero stays zero. -/
def Obligations.TimersTickAfterDispatch : Prop :=
  ∀ (s m : State) (w : Word), s.fetch = .ok w → exec (decode w) s.advance = .next m →
    ∃ t, step s = .next t ∧ (0 < m.dt.toNat → t.dt.toNat = m.dt.toNat - 1) ∧ (m.dt.toNat = 0 → t.dt.toNat = 0) ∧
      (0 < m.st.toNat → t.st.toNat = m.st.toNat - 1) ∧ (m.st.toNat = 0 → t.st.toNat = 0)

/-- Over any run without a fault the counter counts the Steps modulo `2^64`, and each Step takes one key sample. The counter's width
and when it counts are the spec's decision D16 (log 25); one sample a Step is D26 (log 27). -/
def Obligations.RunCountsItsSteps : Prop :=
  ∀ (k : Nat) (s t : State), core.run k s = .next t →
    t.icount.toNat = (s.icount.toNat + k) % 2 ^ 64 ∧ t.keySamples = s.keySamples + k

/-- Every step of every state answers a next state or one of the three faults of a Step: it never refuses, and never reports
`ProgramTooLarge`. -/
def Obligations.StepNeverRefuses : Prop :=
  ∀ s : State, (∃ t, step s = .next t) ∨ (∃ a, 0x1000 ≤ a ∧ step s = .fault (.addressOutOfRange a)) ∨
    step s = .fault .stackUnderflow ∨ step s = .fault .stackOverflow

/-- R271, whole: a step reports `AddressOutOfRange` exactly when the fetch, or an access of the instruction, leaves memory. An `I` or a
`pc` out of range that nothing uses reports nothing. -/
def Obligations.AddressFaultsExactlyWhenAnAccessLeavesMemory : Prop :=
  ∀ s : State, (∃ a, step s = .fault (.addressOutOfRange a)) ↔
    0xFFF ≤ s.pc.toNat ∨
    (∃ x y n, Executes s (.drwVxVyN x y n) ∧ 1 ≤ n.val ∧ 0xFFF < s.index.toNat + n.val - 1) ∨
    (∃ x, Executes s (.ldBVx x) ∧ 0xFFF < s.index.toNat + 2) ∨
    (∃ x, (Executes s (.ldMemVx x) ∨ Executes s (.ldVxMem x)) ∧ 0xFFF < s.index.toNat + x.val)

/-- R272 and R273: the stack faults, each exactly when its instruction meets an empty or a full stack; an unbounded stack never overflows.
The premise is the clause of `Inv` that the stack is within its depth. That the depth is 16 by default is the spec's decision D4 (log 10,
DESIGN CHOICE). -/
def Obligations.StackFaultsExactlyOnEmptyOrFullStack : Prop :=
  Config.default.stackDepth = some 16 ∧
  ∀ s : State, (∀ d, s.cfg.stackDepth = some d → s.sp ≤ d) →
    (step s = .fault .stackUnderflow ↔ Executes s .ret ∧ s.sp = 0) ∧
    (step s = .fault .stackOverflow ↔ ∃ nnn, Executes s (.callNnn nnn) ∧ s.cfg.stackDepth = some s.sp)

/-- What a faulting step leaves (R137, R279): nothing changed if the fetch faulted, `pc` alone advanced if the instruction did. That the
timers and the counter stand still is the spec's decision D11 (log 16). -/
def Obligations.FaultingStepChangesOnlyPc : Prop :=
  ∀ (s : State) (f : Fault), step s = .fault f →
    (s.fetch = .error f ∧ ChangesOnly (fun p => p ∈ [.keyInput, .dispDirty, .undefOp]) s (stateAfterFault s)) ∨
    ((∃ i, Executes s i) ∧ FaultsInExecution s f)

/-! ## What instructions may change -/

/-- R34, its writes: no instruction changes a general register that R34 does not list for it. -/
def Obligations.RegistersAreWrittenOnlyAsListed : Prop :=
  ∀ (i : Instr) (s t : State) (k : Reg), exec i s = .next t → writesV i k = false → t.getV k = s.getV k

/-- R45, R47, R48, R53, R58: each special register and the random source is changed by its own instructions alone, and no instruction
changes the parameters, the counter or the key inputs. That `00E0` alone raises `disp_dirty` (`Dxyn` does not) and the no-op alone
`undef_op` is R59 (b) and (c), the spec's decisions D15 and D23 (log 3, DESIGN CHOICE). -/
def Obligations.SpecialStateIsWrittenOnlyByItsInstructions : Prop :=
  ∀ (i : Instr) (s t : State), exec i s = .next t →
    t.cfg = s.cfg ∧ t.icount = s.icount ∧ t.keyInputs = s.keyInputs ∧ t.keySamples = s.keySamples ∧
    (t.index = s.index ∨ (∃ nnn, i = .ldINnn nnn) ∨ (∃ x, i = .addIVx x ∨ i = .ldFVx x)) ∧
    (t.dt = s.dt ∨ ∃ x, i = .ldDtVx x) ∧
    (t.st = s.st ∨ ∃ x, i = .ldStVx x) ∧
    (t.rndInputs = s.rndInputs ∧ t.rndDraws = s.rndDraws ∨ ∃ x nn, i = .rndVxNn x nn) ∧
    (t.dispDirty = s.dispDirty ∨ i = .cls) ∧ (t.undefOp = s.undefOp ∨ ∃ w, i = .nop w)

/-- R51, R54, R83: only `2nnn` and `00EE` change the stack, only `00E0` and `Dxyn` the framebuffer, only `Fx33` and `Fx55` memory. -/
def Obligations.StorageIsWrittenOnlyByItsInstructions : Prop :=
  ∀ (i : Instr) (s t : State), exec i s = .next t →
    (t.stack = s.stack ∨ i = .ret ∨ ∃ nnn, i = .callNnn nnn) ∧
    (t.fb = s.fb ∨ i = .cls ∨ ∃ x y n, i = .drwVxVyN x y n) ∧
    (t.mem = s.mem ∨ ∃ x, i = .ldBVx x ∨ i = .ldMemVx x)

/-- R37, the list of what leaves `pc` elsewhere than at the next instruction: jump, call, return and offset jump; a skip adds 2 more; a
key wait may stay. -/
def Obligations.OnlyListedInstructionsRedirectPc : Prop :=
  ∀ (i : Instr) (s t : State), Executes s i → step s = .next t →
    t.pc = s.pc + 2 ∨
    (∃ nnn, (i = .jpNnn nnn ∨ i = .callNnn nnn) ∧ t.pc.toNat = nnn.toNat) ∨
    (i = .ret ∧ some t.pc = s.stackEntry (s.sp - 1)) ∨
    (∃ nnn, i = .jpV0Nnn nnn ∧ t.pc.toNat = ((s.getV 0).toNat + nnn.toNat) % 4096) ∨
    (t.pc = s.pc + 4 ∧ ((∃ x nn, i = .seVxNn x nn ∨ i = .sneVxNn x nn) ∨ (∃ x y, i = .seVxVy x y ∨ i = .sneVxVy x y) ∨
      ∃ x, i = .skpVx x ∨ i = .sknpVx x)) ∨
    (t.pc = s.pc ∧ ∃ x, i = .ldVxK x)

/-- R140: a step that executes none of the three key instructions is the same whatever the key inputs are, and one that executes no
`Cxnn` is the same whatever the random bytes are. That a Step which reads no key still uses up one vector is the spec's decision D26 (log
27, DESIGN CHOICE); that the vectors and bytes are lists in State is the model's (logs 1, 2, DESIGN CHOICE). -/
def Obligations.StepIsIndependentOfInputsItDoesNotRead : Prop :=
  ∀ (s : State) (w : Word), s.fetch = .ok w →
    (readsKeys (decode w) = false → ∀ ks n,
      step { s with keyInputs := ks, keySamples := n } =
        onNext (fun t => { t with keyInputs := ks.tail, keySamples := n + 1 }) (step s)) ∧
    ((∀ x nn, decode w ≠ .rndVxNn x nn) → ∀ bs n,
      step { s with rndInputs := bs, rndDraws := n } = onNext (fun t => { t with rndInputs := bs, rndDraws := n }) (step s))

/-- R53, R59: nothing depends on the counter or on the strobes of the Step before. That a Step adds 1 to the counter is the spec's
decision D16 (log 25, DESIGN CHOICE); that the strobes are set anew in each Step is D15 and D23 (log 3, DESIGN CHOICE). -/
def Obligations.DiagnosticsInfluenceNothing : Prop :=
  ∀ (s : State) (c : BitVec 64) (d u : Bool),
    step { s with icount := c, dispDirty := d, undefOp := u } = onNext (fun t => { t with icount := c + 1 }) (step s)

/-! ## Reset and load -/

/-- What the source itself says of reset, for every choice of the parameters: registers zero (R35), `pc` at `0x200` (R40), and the copy of
R91, the font table in place. -/
def Obligations.ResetHoldsTheStatedValues : Prop :=
  State.reset = State.resetWith Config.default ∧
  ∀ c : Config, (∀ k, (State.resetWith c).getV k = 0) ∧ (State.resetWith c).pc = 0x200 ∧
    (∀ k : Fin 80, (State.resetWith c).readMem (0x050 + k.val) = c.font[k]) ∧ (State.resetWith c).cfg = c

/-- The rest of reset, which is the spec's own choice (D2, D4, D7, D8, D9, D16; logs 4, 6, 7, 8, 10, 25): zeros, an empty stack, a dark
screen, `MEM_FILL` in every cell outside the font table; 64 by 32 pixels, 16 stack entries and `00` by default. -/
def Obligations.ResetHoldsTheDecidedValues : Prop :=
  (∀ c : Config, (State.resetWith c).index = 0 ∧ (State.resetWith c).dt = 0 ∧ (State.resetWith c).st = 0 ∧
    (State.resetWith c).sp = 0 ∧ (State.resetWith c).icount = 0 ∧ (∀ px py, (State.resetWith c).getPixel px py = false) ∧
    ∀ a, a < 0x050 ∨ 0x0A0 ≤ a → (State.resetWith c).readMem a = c.memFill) ∧
  Config.default.fbWidth = 64 ∧ Config.default.fbHeight = 32 ∧ Config.default.stackDepth = some 16 ∧ Config.default.memFill = 0

/-- Reset satisfies the invariant, for every legal choice of the parameters (R8), the default one among them. -/
def Obligations.ResetSatisfiesTheInvariant : Prop :=
  Inv State.reset ∧ ∀ c : Config, c.valid = true → Inv (State.resetWith c)

/-- Every step keeps the invariant, in every state that has it, reachable or not; so does what a fault leaves, and a program load.
`pc` at most `0x1002` is R39, pushed addresses at most `0x1000` is R150, the depth of the stack is R50, the canonical forms are the
model's (logs 23, 24). -/
def Obligations.StepKeepsTheInvariant : Prop :=
  (∀ s t : State, Inv s → step s = .next t → Inv t) ∧
  (∀ (s : State) (f : Fault), Inv s → step s = .fault f → Inv (stateAfterFault s)) ∧
  (∀ (bytes : List Byte) (s t : State), Inv s → loadProgram bytes s = .next t → Inv t)

/-- Two states with canonical lists and the same parts are the same state: a frame over all parts leaves nothing out. -/
def Obligations.PartsDetermineTheState : Prop :=
  ∀ s t : State, s.mem.wf s.cfg → t.mem.wf t.cfg → s.fb.wf s.cfg → t.fb.wf t.cfg →
    ChangesOnly (fun _ => False) s t → t = s

/-- `LoadProgram` copies the image to `0x200` and touches nothing else, up to 3584 bytes; a longer one is refused whole. That a failed
load writes nothing is the spec's decision D20 (log 19, DESIGN CHOICE); that its fault carries nothing is D12, and the
length that the table of R270 reports is told beside it, as `loadInfo` (log 17, DESIGN CHOICE). -/
def Obligations.LoadProgramCopiesTheImage : Prop :=
  ∀ (bytes : List Byte) (s : State),
    (bytes.length ≤ 3584 → ∃ t, loadProgram bytes s = .next t ∧
      (∀ (k : Nat) (h : k < bytes.length), t.readMem (0x200 + k) = bytes[k]) ∧
      ChangesOnly (fun p => ∃ k < bytes.length, p = Part.cell (0x200 + k)) s t) ∧
    (3584 < bytes.length → loadProgram bytes s = .fault .programTooLarge ∧ loadInfo bytes = some bytes.length)

/-! ## Runs -/

/-- R152 with R150: a return from the same stack the call left goes to the instruction after the call, and leaves the stack as it was
before the call. -/
def Obligations.ReturnGoesPastItsCall : Prop :=
  ∀ (nnn : Address) (s t u w : State), Executes s (.callNnn nnn) → step s = .next t →
    u.stack = t.stack → Executes u .ret → step u = .next w → w.pc = s.pc + 2 ∧ w.stack = s.stack

/-- R247: a delay timer set from `V[x]` is that value less the number of Steps since, the setting Step included, and zero from then on,
as long as no `Fx15` executes again; an `Fx07` executed then reads it. -/
def Obligations.DelayTimerCountsSteps : Prop :=
  ∀ (j : Nat) (x : Reg) (s t : State), Executes s (.ldDtVx x) → core.run (j + 1) s = .next t →
    (∀ k u, 1 ≤ k → k ≤ j → core.run k s = .next u → ∀ y, ¬ Executes u (.ldDtVx y)) →
    t.dt.toNat = (s.getV x).toNat - (j + 1) ∧
    ∀ y, Executes t (.ldVxDt y) → ∃ u, step t = .next u ∧ (u.getV y).toNat = (s.getV x).toNat - (j + 1)

/-- R243 (d) and R322: through any number of Steps with no key down `Fx0A` waits, only the timers and the count running; the first Step
with a key down ends the wait with the least key. The vectors are those the host lists (log 1, DESIGN CHOICE), one for each Step
(the spec's decision D26, log 27, DESIGN CHOICE). -/
def Obligations.KeyWaitLastsUntilAKeyIsDown : Prop :=
  ∀ (j : Nat) (x : Reg) (s : State) (k : Word) (rest : List Word), Executes s (.ldVxK x) →
    s.keyInputs = List.replicate j 0 ++ k :: rest → k ≠ 0 →
    ∃ t u, core.run j s = .next t ∧ t.pc = s.pc ∧ t.dt.toNat = s.dt.toNat - j ∧ t.st.toNat = s.st.toNat - j ∧
      ChangesOnly (fun p => p ∈ [.dt, .st, .icount, .keyInput, .dispDirty, .undefOp]) s t ∧
      step t = .next u ∧ u.pc = s.pc + 2 ∧
      k.getLsbD (u.getV x).toNat = true ∧ ∀ i < (u.getV x).toNat, k.getLsbD i = false

/-- R141 and its decision D24 (log 29): a finished program stays finished for any number of Steps, only the timers, the count and the
Step's own inputs and strobes moving. -/
def Obligations.FinishedProgramStaysFinished : Prop :=
  ∀ (j : Nat) (s : State), finished s = true → ∃ t, core.run j s = .next t ∧ finished t = true ∧
    ChangesOnly (fun p => p ∈ [.dt, .st, .icount, .keyInput, .dispDirty, .undefOp]) s t

/-! ## Result codes -/

/-- The table of R270, row by row: 0 is `Ok`, 1 AddressOutOfRange, 2 StackUnderflow, 3 StackOverflow, 4 ProgramTooLarge, and no other
result has one of these codes; every Step has one of 0 to 3, and 0 exactly when it completes; a load has 0, or 4 when the image is too
long. The numbers are the spec's decision D12 (log 17, DESIGN CHOICE). -/
def Obligations.ResultsHaveTheirCodes : Prop :=
  (∀ r : Host.Outcome State Fault Refusal,
    (resultCode r = some 0 ↔ ∃ t, r = .next t) ∧
    (resultCode r = some 1 ↔ ∃ a, r = .fault (.addressOutOfRange a)) ∧
    (resultCode r = some 2 ↔ r = .fault .stackUnderflow) ∧
    (resultCode r = some 3 ↔ r = .fault .stackOverflow) ∧
    (resultCode r = some 4 ↔ r = .fault .programTooLarge)) ∧
  (∀ s : State, ∃ c ≤ 3, resultCode (step s) = some c ∧ (c = 0 ↔ ∃ t, step s = .next t)) ∧
  (∀ (bytes : List Byte) (s : State), resultCode (loadProgram bytes s) = some (if bytes.length ≤ 3584 then 0 else 4))
end

