-- ==== Sys2Proof/Laws/Decode.lean ====
section
/-! SUPPORT. The fields of an opcode and of an encoded instruction as numbers (R102), two bytes as a word, and what the masks of the
opcode table select. -/

namespace Sys2Proof

theorem topNibble_eq (w : Word) : topNibble w = w.toNat / 4096 := by
  have := w.isLt
  simp only [topNibble, BitVec.extractLsb'_toNat, Nat.shiftRight_eq_div_pow]; omega

theorem fieldX_val (w : Word) : (fieldX w).val = w.toNat / 256 % 16 := by
  simp [fieldX, Nat.shiftRight_eq_div_pow]

theorem fieldY_val (w : Word) : (fieldY w).val = w.toNat / 16 % 16 := by
  simp [fieldY, Nat.shiftRight_eq_div_pow]

theorem fieldN_val (w : Word) : (fieldN w).val = w.toNat % 16 := by
  simp [fieldN]

theorem fieldNn_toNat (w : Word) : (fieldNn w).toNat = w.toNat % 256 := by
  simp [fieldNn, BitVec.extractLsb'_toNat]

theorem fieldNnn_toNat (w : Word) : (fieldNnn w).toNat = w.toNat % 4096 := by
  simp [fieldNnn, BitVec.extractLsb'_toNat]

theorem highByte_toNat (w : Word) : (highByte w).toNat = w.toNat / 256 := by
  have := w.isLt
  simp only [highByte, BitVec.extractLsb'_toNat, Nat.shiftRight_eq_div_pow]; omega

theorem lowByte_toNat (w : Word) : (lowByte w).toNat = w.toNat % 256 := by
  simp [lowByte, BitVec.extractLsb'_toNat]

theorem wordOfBytes_toNat (hi lo : Byte) : (wordOfBytes hi lo).toNat = hi.toNat * 256 + lo.toNat := by
  have := lo.isLt
  simp only [wordOfBytes, BitVec.toNat_append, Nat.shiftLeft_eq]
  rw [Nat.mul_comm, ← Nat.two_pow_add_eq_or_of_lt this]

@[simp] theorem wordOfBytes_highByte_lowByte (w : Word) : wordOfBytes (highByte w) (lowByte w) = w := by
  apply BitVec.eq_of_toNat_eq
  rw [wordOfBytes_toNat, highByte_toNat, lowByte_toNat]; omega

@[simp] theorem highByte_wordOfBytes (hi lo : Byte) : highByte (wordOfBytes hi lo) = hi := by
  apply BitVec.eq_of_toNat_eq
  have := lo.isLt
  rw [highByte_toNat, wordOfBytes_toNat]; omega

@[simp] theorem lowByte_wordOfBytes (hi lo : Byte) : lowByte (wordOfBytes hi lo) = lo := by
  apply BitVec.eq_of_toNat_eq
  have := lo.isLt
  rw [lowByte_toNat, wordOfBytes_toNat]; omega

theorem encodeRI_toNat {op : Nat} (h : op < 16) (x : Reg) (nn : Byte) :
    (encodeRI op x nn).toNat = op * 4096 + x.val * 256 + nn.toNat := by
  have := x.isLt
  have := nn.isLt
  simp only [encodeRI, BitVec.toNat_ofNat]; omega

theorem encodeRR_toNat {op n : Nat} (h : op < 16) (hn : n < 16) (x y : Reg) :
    (encodeRR op x y n).toNat = op * 4096 + x.val * 256 + y.val * 16 + n := by
  have := x.isLt
  have := y.isLt
  simp only [encodeRR, BitVec.toNat_ofNat]; omega

theorem encodeA_toNat {op : Nat} (h : op < 16) (nnn : Address) : (encodeA op nnn).toNat = op * 4096 + nnn.toNat := by
  have := nnn.isLt
  simp only [encodeA, BitVec.toNat_ofNat]; omega

/-- The fields of an RI encoding are what it was built from. -/
theorem fields_encodeRI {op : Nat} (h : op < 16) (x : Reg) (nn : Byte) :
    topNibble (encodeRI op x nn) = op ∧ fieldX (encodeRI op x nn) = x ∧ fieldNn (encodeRI op x nn) = nn := by
  have e := encodeRI_toNat h x nn
  have := x.isLt
  have := nn.isLt
  exact ⟨by rw [topNibble_eq, e]; omega, Fin.ext (by rw [fieldX_val, e]; omega),
    BitVec.eq_of_toNat_eq (by rw [fieldNn_toNat, e]; omega)⟩

/-- The fields of an RR or RRN encoding are what it was built from. -/
theorem fields_encodeRR {op n : Nat} (h : op < 16) (hn : n < 16) (x y : Reg) :
    topNibble (encodeRR op x y n) = op ∧ fieldX (encodeRR op x y n) = x ∧ fieldY (encodeRR op x y n) = y ∧
      fieldN (encodeRR op x y n) = ⟨n, hn⟩ := by
  have e := encodeRR_toNat h hn x y
  have := x.isLt
  have := y.isLt
  exact ⟨by rw [topNibble_eq, e]; omega, Fin.ext (by rw [fieldX_val, e]; omega), Fin.ext (by rw [fieldY_val, e]; omega),
    Fin.ext (by rw [fieldN_val, e]; simp only; omega)⟩

/-- The fields of an A encoding are what it was built from. -/
theorem fields_encodeA {op : Nat} (h : op < 16) (nnn : Address) :
    topNibble (encodeA op nnn) = op ∧ fieldNnn (encodeA op nnn) = nnn := by
  have e := encodeA_toNat h nnn
  have := nnn.isLt
  exact ⟨by rw [topNibble_eq, e]; omega, BitVec.eq_of_toNat_eq (by rw [fieldNnn_toNat, e]; omega)⟩

/-- The bits of a word that a mask keeps, nibble by nibble: enough to read every mask of the table. -/
theorem and_eq_iff_nibbles (w m v : Word) :
    w &&& m = v ↔
      w.extractLsb' 12 4 &&& m.extractLsb' 12 4 = v.extractLsb' 12 4 ∧
      w.extractLsb' 8 4 &&& m.extractLsb' 8 4 = v.extractLsb' 8 4 ∧
      w.extractLsb' 4 4 &&& m.extractLsb' 4 4 = v.extractLsb' 4 4 ∧
      w.extractLsb' 0 4 &&& m.extractLsb' 0 4 = v.extractLsb' 0 4 := by
  constructor
  · rintro rfl
    simp [BitVec.extractLsb'_and]
  · rintro ⟨h3, h2, h1, h0⟩
    apply BitVec.eq_of_getLsbD_eq
    intro i hi
    have key : ∀ k j, j < 4 → w.extractLsb' k 4 &&& m.extractLsb' k 4 = v.extractLsb' k 4 →
        (w &&& m).getLsbD (k + j) = v.getLsbD (k + j) := fun k j hj h => by
      have := congrArg (fun b => b.getLsbD j) h
      simpa [hj] using this
    rcases (by omega : i < 4 ∨ (4 ≤ i ∧ i < 8) ∨ (8 ≤ i ∧ i < 12) ∨ 12 ≤ i) with h | h | h | h
    · simpa using key 0 i h h0
    · simpa [(by omega : 4 + (i - 4) = i)] using key 4 (i - 4) (by omega) h1
    · simpa [(by omega : 8 + (i - 8) = i)] using key 8 (i - 8) (by omega) h2
    · simpa [(by omega : 12 + (i - 12) = i)] using key 12 (i - 12) (by omega) h3

theorem extractLsb'_eq_iff (w v : Word) (k : Nat) :
    w.extractLsb' k 4 = v.extractLsb' k 4 ↔ w.toNat / 2 ^ k % 16 = v.toNat / 2 ^ k % 16 := by
  rw [← BitVec.toNat_inj]
  simp [BitVec.extractLsb'_toNat, Nat.shiftRight_eq_div_pow]

theorem zero_eq_extractLsb'_iff (v : Word) (k : Nat) : 0#4 = v.extractLsb' k 4 ↔ v.toNat / 2 ^ k % 16 = 0 := by
  rw [← BitVec.toNat_inj]
  simp [BitVec.extractLsb'_toNat, Nat.shiftRight_eq_div_pow, eq_comm]

/-- Mask `F000` keeps the top nibble. -/
theorem and_F000_eq_iff {w v : Word} (h : v.toNat % 4096 = 0) : w &&& 0xF000 = v ↔ w.toNat / 4096 = v.toNat / 4096 := by
  have := w.isLt
  have := v.isLt
  rw [and_eq_iff_nibbles, (by decide : (0xF000 : Word).extractLsb' 12 4 = BitVec.allOnes 4),
    (by decide : (0xF000 : Word).extractLsb' 8 4 = 0#4), (by decide : (0xF000 : Word).extractLsb' 4 4 = 0#4),
    (by decide : (0xF000 : Word).extractLsb' 0 4 = 0#4)]
  simp only [BitVec.and_allOnes, BitVec.and_zero, extractLsb'_eq_iff, zero_eq_extractLsb'_iff]
  omega

/-- Mask `F00F` keeps the top and the low nibble. -/
theorem and_F00F_eq_iff {w v : Word} (h : v.toNat / 16 % 256 = 0) :
    w &&& 0xF00F = v ↔ w.toNat / 4096 = v.toNat / 4096 ∧ w.toNat % 16 = v.toNat % 16 := by
  have := w.isLt
  have := v.isLt
  rw [and_eq_iff_nibbles, (by decide : (0xF00F : Word).extractLsb' 12 4 = BitVec.allOnes 4),
    (by decide : (0xF00F : Word).extractLsb' 8 4 = 0#4), (by decide : (0xF00F : Word).extractLsb' 4 4 = 0#4),
    (by decide : (0xF00F : Word).extractLsb' 0 4 = BitVec.allOnes 4)]
  simp only [BitVec.and_allOnes, BitVec.and_zero, extractLsb'_eq_iff, zero_eq_extractLsb'_iff]
  omega

/-- Mask `F0FF` keeps the top nibble and the low byte. -/
theorem and_F0FF_eq_iff {w v : Word} (h : v.toNat / 256 % 16 = 0) :
    w &&& 0xF0FF = v ↔ w.toNat / 4096 = v.toNat / 4096 ∧ w.toNat % 256 = v.toNat % 256 := by
  have := w.isLt
  have := v.isLt
  rw [and_eq_iff_nibbles, (by decide : (0xF0FF : Word).extractLsb' 12 4 = BitVec.allOnes 4),
    (by decide : (0xF0FF : Word).extractLsb' 8 4 = 0#4), (by decide : (0xF0FF : Word).extractLsb' 4 4 = BitVec.allOnes 4),
    (by decide : (0xF0FF : Word).extractLsb' 0 4 = BitVec.allOnes 4)]
  simp only [BitVec.and_allOnes, BitVec.and_zero, extractLsb'_eq_iff, zero_eq_extractLsb'_iff]
  omega

/-- Mask `FFFF` keeps the word. -/
theorem and_FFFF_eq_iff {w v : Word} : w &&& 0xFFFF = v ↔ w = v := by
  rw [(by decide : (0xFFFF : Word) = BitVec.allOnes 16), BitVec.and_allOnes]

end Sys2Proof
end

