-- ==== Sys2Proof/Laws/State.lean ====
section
/-! SUPPORT. What each update of the state leaves in each field: one lemma per field per update, true by rfl, so that no later proof
unfolds a record update; and the reads of a register after a write. -/

namespace Sys2Proof.Machine.State

variable (s : State)

/-! ## `setV` -/

@[simp] theorem setV_cfg (x : Reg) (b : Byte) : (s.setV x b).cfg = s.cfg := rfl
@[simp] theorem setV_v (x : Reg) (b : Byte) : (s.setV x b).v = s.v.set x b := rfl
@[simp] theorem setV_pc (x : Reg) (b : Byte) : (s.setV x b).pc = s.pc := rfl
@[simp] theorem setV_index (x : Reg) (b : Byte) : (s.setV x b).index = s.index := rfl
@[simp] theorem setV_dt (x : Reg) (b : Byte) : (s.setV x b).dt = s.dt := rfl
@[simp] theorem setV_st (x : Reg) (b : Byte) : (s.setV x b).st = s.st := rfl
@[simp] theorem setV_stack (x : Reg) (b : Byte) : (s.setV x b).stack = s.stack := rfl
@[simp] theorem setV_icount (x : Reg) (b : Byte) : (s.setV x b).icount = s.icount := rfl
@[simp] theorem setV_fb (x : Reg) (b : Byte) : (s.setV x b).fb = s.fb := rfl
@[simp] theorem setV_mem (x : Reg) (b : Byte) : (s.setV x b).mem = s.mem := rfl
@[simp] theorem setV_keyInputs (x : Reg) (b : Byte) : (s.setV x b).keyInputs = s.keyInputs := rfl
@[simp] theorem setV_keySamples (x : Reg) (b : Byte) : (s.setV x b).keySamples = s.keySamples := rfl
@[simp] theorem setV_rndInputs (x : Reg) (b : Byte) : (s.setV x b).rndInputs = s.rndInputs := rfl
@[simp] theorem setV_rndDraws (x : Reg) (b : Byte) : (s.setV x b).rndDraws = s.rndDraws := rfl
@[simp] theorem setV_dispDirty (x : Reg) (b : Byte) : (s.setV x b).dispDirty = s.dispDirty := rfl
@[simp] theorem setV_undefOp (x : Reg) (b : Byte) : (s.setV x b).undefOp = s.undefOp := rfl
@[simp] theorem setV_readMem (x : Reg) (b : Byte) (a : Nat) : (s.setV x b).readMem a = s.readMem a := rfl
@[simp] theorem setV_getPixel (x : Reg) (b : Byte) (px py : Nat) : (s.setV x b).getPixel px py = s.getPixel px py := rfl
@[simp] theorem setV_keys (x : Reg) (b : Byte) : (s.setV x b).keys = s.keys := rfl
@[simp] theorem setV_rnd (x : Reg) (b : Byte) : (s.setV x b).rnd = s.rnd := rfl
@[simp] theorem setV_sp (x : Reg) (b : Byte) : (s.setV x b).sp = s.sp := rfl

/-! ## `setVBlock` -/

@[simp] theorem setVBlock_cfg (x : Reg) (f : Reg → Byte) : (s.setVBlock x f).cfg = s.cfg := by simp only [setVBlock]
@[simp] theorem setVBlock_pc (x : Reg) (f : Reg → Byte) : (s.setVBlock x f).pc = s.pc := by simp only [setVBlock]
@[simp] theorem setVBlock_index (x : Reg) (f : Reg → Byte) : (s.setVBlock x f).index = s.index := by simp only [setVBlock]
@[simp] theorem setVBlock_dt (x : Reg) (f : Reg → Byte) : (s.setVBlock x f).dt = s.dt := by simp only [setVBlock]
@[simp] theorem setVBlock_st (x : Reg) (f : Reg → Byte) : (s.setVBlock x f).st = s.st := by simp only [setVBlock]
@[simp] theorem setVBlock_stack (x : Reg) (f : Reg → Byte) : (s.setVBlock x f).stack = s.stack := by simp only [setVBlock]
@[simp] theorem setVBlock_icount (x : Reg) (f : Reg → Byte) : (s.setVBlock x f).icount = s.icount := by simp only [setVBlock]
@[simp] theorem setVBlock_fb (x : Reg) (f : Reg → Byte) : (s.setVBlock x f).fb = s.fb := by simp only [setVBlock]
@[simp] theorem setVBlock_mem (x : Reg) (f : Reg → Byte) : (s.setVBlock x f).mem = s.mem := by simp only [setVBlock]
@[simp] theorem setVBlock_keyInputs (x : Reg) (f : Reg → Byte) : (s.setVBlock x f).keyInputs = s.keyInputs := by simp only [setVBlock]
@[simp] theorem setVBlock_keySamples (x : Reg) (f : Reg → Byte) : (s.setVBlock x f).keySamples = s.keySamples := by simp only [setVBlock]
@[simp] theorem setVBlock_rndInputs (x : Reg) (f : Reg → Byte) : (s.setVBlock x f).rndInputs = s.rndInputs := by simp only [setVBlock]
@[simp] theorem setVBlock_rndDraws (x : Reg) (f : Reg → Byte) : (s.setVBlock x f).rndDraws = s.rndDraws := by simp only [setVBlock]
@[simp] theorem setVBlock_dispDirty (x : Reg) (f : Reg → Byte) : (s.setVBlock x f).dispDirty = s.dispDirty := by simp only [setVBlock]
@[simp] theorem setVBlock_undefOp (x : Reg) (f : Reg → Byte) : (s.setVBlock x f).undefOp = s.undefOp := by simp only [setVBlock]
@[simp] theorem setVBlock_readMem (x : Reg) (f : Reg → Byte) (a : Nat) : (s.setVBlock x f).readMem a = s.readMem a := by simp only [setVBlock, readMem]
@[simp] theorem setVBlock_getPixel (x : Reg) (f : Reg → Byte) (px py : Nat) : (s.setVBlock x f).getPixel px py = s.getPixel px py := by simp only [setVBlock, getPixel]
@[simp] theorem setVBlock_keys (x : Reg) (f : Reg → Byte) : (s.setVBlock x f).keys = s.keys := by simp only [setVBlock, keys]
@[simp] theorem setVBlock_rnd (x : Reg) (f : Reg → Byte) : (s.setVBlock x f).rnd = s.rnd := by simp only [setVBlock, rnd]
@[simp] theorem setVBlock_sp (x : Reg) (f : Reg → Byte) : (s.setVBlock x f).sp = s.sp := by simp only [setVBlock, sp]

/-! ## `setFlagThenV` -/

@[simp] theorem setFlagThenV_cfg (x : Reg) (b : Byte) (c : Bool) : (s.setFlagThenV x b c).cfg = s.cfg := rfl
@[simp] theorem setFlagThenV_pc (x : Reg) (b : Byte) (c : Bool) : (s.setFlagThenV x b c).pc = s.pc := rfl
@[simp] theorem setFlagThenV_index (x : Reg) (b : Byte) (c : Bool) : (s.setFlagThenV x b c).index = s.index := rfl
@[simp] theorem setFlagThenV_dt (x : Reg) (b : Byte) (c : Bool) : (s.setFlagThenV x b c).dt = s.dt := rfl
@[simp] theorem setFlagThenV_st (x : Reg) (b : Byte) (c : Bool) : (s.setFlagThenV x b c).st = s.st := rfl
@[simp] theorem setFlagThenV_stack (x : Reg) (b : Byte) (c : Bool) : (s.setFlagThenV x b c).stack = s.stack := rfl
@[simp] theorem setFlagThenV_icount (x : Reg) (b : Byte) (c : Bool) : (s.setFlagThenV x b c).icount = s.icount := rfl
@[simp] theorem setFlagThenV_fb (x : Reg) (b : Byte) (c : Bool) : (s.setFlagThenV x b c).fb = s.fb := rfl
@[simp] theorem setFlagThenV_mem (x : Reg) (b : Byte) (c : Bool) : (s.setFlagThenV x b c).mem = s.mem := rfl
@[simp] theorem setFlagThenV_keyInputs (x : Reg) (b : Byte) (c : Bool) : (s.setFlagThenV x b c).keyInputs = s.keyInputs := rfl
@[simp] theorem setFlagThenV_keySamples (x : Reg) (b : Byte) (c : Bool) : (s.setFlagThenV x b c).keySamples = s.keySamples := rfl
@[simp] theorem setFlagThenV_rndInputs (x : Reg) (b : Byte) (c : Bool) : (s.setFlagThenV x b c).rndInputs = s.rndInputs := rfl
@[simp] theorem setFlagThenV_rndDraws (x : Reg) (b : Byte) (c : Bool) : (s.setFlagThenV x b c).rndDraws = s.rndDraws := rfl
@[simp] theorem setFlagThenV_dispDirty (x : Reg) (b : Byte) (c : Bool) : (s.setFlagThenV x b c).dispDirty = s.dispDirty := rfl
@[simp] theorem setFlagThenV_undefOp (x : Reg) (b : Byte) (c : Bool) : (s.setFlagThenV x b c).undefOp = s.undefOp := rfl
@[simp] theorem setFlagThenV_readMem (x : Reg) (b : Byte) (c : Bool) (a : Nat) : (s.setFlagThenV x b c).readMem a = s.readMem a := rfl
@[simp] theorem setFlagThenV_getPixel (x : Reg) (b : Byte) (c : Bool) (px py : Nat) : (s.setFlagThenV x b c).getPixel px py = s.getPixel px py := rfl
@[simp] theorem setFlagThenV_keys (x : Reg) (b : Byte) (c : Bool) : (s.setFlagThenV x b c).keys = s.keys := rfl
@[simp] theorem setFlagThenV_rnd (x : Reg) (b : Byte) (c : Bool) : (s.setFlagThenV x b c).rnd = s.rnd := rfl
@[simp] theorem setFlagThenV_sp (x : Reg) (b : Byte) (c : Bool) : (s.setFlagThenV x b c).sp = s.sp := rfl

/-! ## `setPc` -/

@[simp] theorem setPc_cfg (w : Word) : (s.setPc w).cfg = s.cfg := rfl
@[simp] theorem setPc_v (w : Word) : (s.setPc w).v = s.v := rfl
@[simp] theorem setPc_pc (w : Word) : (s.setPc w).pc = w := rfl
@[simp] theorem setPc_index (w : Word) : (s.setPc w).index = s.index := rfl
@[simp] theorem setPc_dt (w : Word) : (s.setPc w).dt = s.dt := rfl
@[simp] theorem setPc_st (w : Word) : (s.setPc w).st = s.st := rfl
@[simp] theorem setPc_stack (w : Word) : (s.setPc w).stack = s.stack := rfl
@[simp] theorem setPc_icount (w : Word) : (s.setPc w).icount = s.icount := rfl
@[simp] theorem setPc_fb (w : Word) : (s.setPc w).fb = s.fb := rfl
@[simp] theorem setPc_mem (w : Word) : (s.setPc w).mem = s.mem := rfl
@[simp] theorem setPc_keyInputs (w : Word) : (s.setPc w).keyInputs = s.keyInputs := rfl
@[simp] theorem setPc_keySamples (w : Word) : (s.setPc w).keySamples = s.keySamples := rfl
@[simp] theorem setPc_rndInputs (w : Word) : (s.setPc w).rndInputs = s.rndInputs := rfl
@[simp] theorem setPc_rndDraws (w : Word) : (s.setPc w).rndDraws = s.rndDraws := rfl
@[simp] theorem setPc_dispDirty (w : Word) : (s.setPc w).dispDirty = s.dispDirty := rfl
@[simp] theorem setPc_undefOp (w : Word) : (s.setPc w).undefOp = s.undefOp := rfl
@[simp] theorem setPc_getV (w : Word) (k : Reg) : (s.setPc w).getV k = s.getV k := rfl
@[simp] theorem setPc_readMem (w : Word) (a : Nat) : (s.setPc w).readMem a = s.readMem a := rfl
@[simp] theorem setPc_getPixel (w : Word) (px py : Nat) : (s.setPc w).getPixel px py = s.getPixel px py := rfl
@[simp] theorem setPc_keys (w : Word) : (s.setPc w).keys = s.keys := rfl
@[simp] theorem setPc_rnd (w : Word) : (s.setPc w).rnd = s.rnd := rfl
@[simp] theorem setPc_sp (w : Word) : (s.setPc w).sp = s.sp := rfl

/-! ## `setIndex` -/

@[simp] theorem setIndex_cfg (w : Word) : (s.setIndex w).cfg = s.cfg := rfl
@[simp] theorem setIndex_v (w : Word) : (s.setIndex w).v = s.v := rfl
@[simp] theorem setIndex_pc (w : Word) : (s.setIndex w).pc = s.pc := rfl
@[simp] theorem setIndex_index (w : Word) : (s.setIndex w).index = w := rfl
@[simp] theorem setIndex_dt (w : Word) : (s.setIndex w).dt = s.dt := rfl
@[simp] theorem setIndex_st (w : Word) : (s.setIndex w).st = s.st := rfl
@[simp] theorem setIndex_stack (w : Word) : (s.setIndex w).stack = s.stack := rfl
@[simp] theorem setIndex_icount (w : Word) : (s.setIndex w).icount = s.icount := rfl
@[simp] theorem setIndex_fb (w : Word) : (s.setIndex w).fb = s.fb := rfl
@[simp] theorem setIndex_mem (w : Word) : (s.setIndex w).mem = s.mem := rfl
@[simp] theorem setIndex_keyInputs (w : Word) : (s.setIndex w).keyInputs = s.keyInputs := rfl
@[simp] theorem setIndex_keySamples (w : Word) : (s.setIndex w).keySamples = s.keySamples := rfl
@[simp] theorem setIndex_rndInputs (w : Word) : (s.setIndex w).rndInputs = s.rndInputs := rfl
@[simp] theorem setIndex_rndDraws (w : Word) : (s.setIndex w).rndDraws = s.rndDraws := rfl
@[simp] theorem setIndex_dispDirty (w : Word) : (s.setIndex w).dispDirty = s.dispDirty := rfl
@[simp] theorem setIndex_undefOp (w : Word) : (s.setIndex w).undefOp = s.undefOp := rfl
@[simp] theorem setIndex_getV (w : Word) (k : Reg) : (s.setIndex w).getV k = s.getV k := rfl
@[simp] theorem setIndex_readMem (w : Word) (a : Nat) : (s.setIndex w).readMem a = s.readMem a := rfl
@[simp] theorem setIndex_getPixel (w : Word) (px py : Nat) : (s.setIndex w).getPixel px py = s.getPixel px py := rfl
@[simp] theorem setIndex_keys (w : Word) : (s.setIndex w).keys = s.keys := rfl
@[simp] theorem setIndex_rnd (w : Word) : (s.setIndex w).rnd = s.rnd := rfl
@[simp] theorem setIndex_sp (w : Word) : (s.setIndex w).sp = s.sp := rfl

/-! ## `setDt` -/

@[simp] theorem setDt_cfg (b : Byte) : (s.setDt b).cfg = s.cfg := rfl
@[simp] theorem setDt_v (b : Byte) : (s.setDt b).v = s.v := rfl
@[simp] theorem setDt_pc (b : Byte) : (s.setDt b).pc = s.pc := rfl
@[simp] theorem setDt_index (b : Byte) : (s.setDt b).index = s.index := rfl
@[simp] theorem setDt_dt (b : Byte) : (s.setDt b).dt = b := rfl
@[simp] theorem setDt_st (b : Byte) : (s.setDt b).st = s.st := rfl
@[simp] theorem setDt_stack (b : Byte) : (s.setDt b).stack = s.stack := rfl
@[simp] theorem setDt_icount (b : Byte) : (s.setDt b).icount = s.icount := rfl
@[simp] theorem setDt_fb (b : Byte) : (s.setDt b).fb = s.fb := rfl
@[simp] theorem setDt_mem (b : Byte) : (s.setDt b).mem = s.mem := rfl
@[simp] theorem setDt_keyInputs (b : Byte) : (s.setDt b).keyInputs = s.keyInputs := rfl
@[simp] theorem setDt_keySamples (b : Byte) : (s.setDt b).keySamples = s.keySamples := rfl
@[simp] theorem setDt_rndInputs (b : Byte) : (s.setDt b).rndInputs = s.rndInputs := rfl
@[simp] theorem setDt_rndDraws (b : Byte) : (s.setDt b).rndDraws = s.rndDraws := rfl
@[simp] theorem setDt_dispDirty (b : Byte) : (s.setDt b).dispDirty = s.dispDirty := rfl
@[simp] theorem setDt_undefOp (b : Byte) : (s.setDt b).undefOp = s.undefOp := rfl
@[simp] theorem setDt_getV (b : Byte) (k : Reg) : (s.setDt b).getV k = s.getV k := rfl
@[simp] theorem setDt_readMem (b : Byte) (a : Nat) : (s.setDt b).readMem a = s.readMem a := rfl
@[simp] theorem setDt_getPixel (b : Byte) (px py : Nat) : (s.setDt b).getPixel px py = s.getPixel px py := rfl
@[simp] theorem setDt_keys (b : Byte) : (s.setDt b).keys = s.keys := rfl
@[simp] theorem setDt_rnd (b : Byte) : (s.setDt b).rnd = s.rnd := rfl
@[simp] theorem setDt_sp (b : Byte) : (s.setDt b).sp = s.sp := rfl

/-! ## `setSt` -/

@[simp] theorem setSt_cfg (b : Byte) : (s.setSt b).cfg = s.cfg := rfl
@[simp] theorem setSt_v (b : Byte) : (s.setSt b).v = s.v := rfl
@[simp] theorem setSt_pc (b : Byte) : (s.setSt b).pc = s.pc := rfl
@[simp] theorem setSt_index (b : Byte) : (s.setSt b).index = s.index := rfl
@[simp] theorem setSt_dt (b : Byte) : (s.setSt b).dt = s.dt := rfl
@[simp] theorem setSt_st (b : Byte) : (s.setSt b).st = b := rfl
@[simp] theorem setSt_stack (b : Byte) : (s.setSt b).stack = s.stack := rfl
@[simp] theorem setSt_icount (b : Byte) : (s.setSt b).icount = s.icount := rfl
@[simp] theorem setSt_fb (b : Byte) : (s.setSt b).fb = s.fb := rfl
@[simp] theorem setSt_mem (b : Byte) : (s.setSt b).mem = s.mem := rfl
@[simp] theorem setSt_keyInputs (b : Byte) : (s.setSt b).keyInputs = s.keyInputs := rfl
@[simp] theorem setSt_keySamples (b : Byte) : (s.setSt b).keySamples = s.keySamples := rfl
@[simp] theorem setSt_rndInputs (b : Byte) : (s.setSt b).rndInputs = s.rndInputs := rfl
@[simp] theorem setSt_rndDraws (b : Byte) : (s.setSt b).rndDraws = s.rndDraws := rfl
@[simp] theorem setSt_dispDirty (b : Byte) : (s.setSt b).dispDirty = s.dispDirty := rfl
@[simp] theorem setSt_undefOp (b : Byte) : (s.setSt b).undefOp = s.undefOp := rfl
@[simp] theorem setSt_getV (b : Byte) (k : Reg) : (s.setSt b).getV k = s.getV k := rfl
@[simp] theorem setSt_readMem (b : Byte) (a : Nat) : (s.setSt b).readMem a = s.readMem a := rfl
@[simp] theorem setSt_getPixel (b : Byte) (px py : Nat) : (s.setSt b).getPixel px py = s.getPixel px py := rfl
@[simp] theorem setSt_keys (b : Byte) : (s.setSt b).keys = s.keys := rfl
@[simp] theorem setSt_rnd (b : Byte) : (s.setSt b).rnd = s.rnd := rfl
@[simp] theorem setSt_sp (b : Byte) : (s.setSt b).sp = s.sp := rfl

/-! ## `setFb` -/

@[simp] theorem setFb_cfg (fb : Framebuffer) : (s.setFb fb).cfg = s.cfg := rfl
@[simp] theorem setFb_v (fb : Framebuffer) : (s.setFb fb).v = s.v := rfl
@[simp] theorem setFb_pc (fb : Framebuffer) : (s.setFb fb).pc = s.pc := rfl
@[simp] theorem setFb_index (fb : Framebuffer) : (s.setFb fb).index = s.index := rfl
@[simp] theorem setFb_dt (fb : Framebuffer) : (s.setFb fb).dt = s.dt := rfl
@[simp] theorem setFb_st (fb : Framebuffer) : (s.setFb fb).st = s.st := rfl
@[simp] theorem setFb_stack (fb : Framebuffer) : (s.setFb fb).stack = s.stack := rfl
@[simp] theorem setFb_icount (fb : Framebuffer) : (s.setFb fb).icount = s.icount := rfl
@[simp] theorem setFb_fb (fb : Framebuffer) : (s.setFb fb).fb = fb := rfl
@[simp] theorem setFb_mem (fb : Framebuffer) : (s.setFb fb).mem = s.mem := rfl
@[simp] theorem setFb_keyInputs (fb : Framebuffer) : (s.setFb fb).keyInputs = s.keyInputs := rfl
@[simp] theorem setFb_keySamples (fb : Framebuffer) : (s.setFb fb).keySamples = s.keySamples := rfl
@[simp] theorem setFb_rndInputs (fb : Framebuffer) : (s.setFb fb).rndInputs = s.rndInputs := rfl
@[simp] theorem setFb_rndDraws (fb : Framebuffer) : (s.setFb fb).rndDraws = s.rndDraws := rfl
@[simp] theorem setFb_dispDirty (fb : Framebuffer) : (s.setFb fb).dispDirty = s.dispDirty := rfl
@[simp] theorem setFb_undefOp (fb : Framebuffer) : (s.setFb fb).undefOp = s.undefOp := rfl
@[simp] theorem setFb_getV (fb : Framebuffer) (k : Reg) : (s.setFb fb).getV k = s.getV k := rfl
@[simp] theorem setFb_readMem (fb : Framebuffer) (a : Nat) : (s.setFb fb).readMem a = s.readMem a := rfl
@[simp] theorem setFb_keys (fb : Framebuffer) : (s.setFb fb).keys = s.keys := rfl
@[simp] theorem setFb_rnd (fb : Framebuffer) : (s.setFb fb).rnd = s.rnd := rfl
@[simp] theorem setFb_sp (fb : Framebuffer) : (s.setFb fb).sp = s.sp := rfl

/-! ## `clearFb` -/

@[simp] theorem clearFb_cfg : s.clearFb.cfg = s.cfg := rfl
@[simp] theorem clearFb_v : s.clearFb.v = s.v := rfl
@[simp] theorem clearFb_pc : s.clearFb.pc = s.pc := rfl
@[simp] theorem clearFb_index : s.clearFb.index = s.index := rfl
@[simp] theorem clearFb_dt : s.clearFb.dt = s.dt := rfl
@[simp] theorem clearFb_st : s.clearFb.st = s.st := rfl
@[simp] theorem clearFb_stack : s.clearFb.stack = s.stack := rfl
@[simp] theorem clearFb_icount : s.clearFb.icount = s.icount := rfl
@[simp] theorem clearFb_fb : s.clearFb.fb = [] := rfl
@[simp] theorem clearFb_mem : s.clearFb.mem = s.mem := rfl
@[simp] theorem clearFb_keyInputs : s.clearFb.keyInputs = s.keyInputs := rfl
@[simp] theorem clearFb_keySamples : s.clearFb.keySamples = s.keySamples := rfl
@[simp] theorem clearFb_rndInputs : s.clearFb.rndInputs = s.rndInputs := rfl
@[simp] theorem clearFb_rndDraws : s.clearFb.rndDraws = s.rndDraws := rfl
@[simp] theorem clearFb_dispDirty : s.clearFb.dispDirty = s.dispDirty := rfl
@[simp] theorem clearFb_undefOp : s.clearFb.undefOp = s.undefOp := rfl
@[simp] theorem clearFb_getV (k : Reg) : s.clearFb.getV k = s.getV k := rfl
@[simp] theorem clearFb_readMem (a : Nat) : s.clearFb.readMem a = s.readMem a := rfl
@[simp] theorem clearFb_keys : s.clearFb.keys = s.keys := rfl
@[simp] theorem clearFb_rnd : s.clearFb.rnd = s.rnd := rfl
@[simp] theorem clearFb_sp : s.clearFb.sp = s.sp := rfl

/-! ## `togglePixel` -/

@[simp] theorem togglePixel_cfg (px py : Nat) : (s.togglePixel px py).cfg = s.cfg := rfl
@[simp] theorem togglePixel_v (px py : Nat) : (s.togglePixel px py).v = s.v := rfl
@[simp] theorem togglePixel_pc (px py : Nat) : (s.togglePixel px py).pc = s.pc := rfl
@[simp] theorem togglePixel_index (px py : Nat) : (s.togglePixel px py).index = s.index := rfl
@[simp] theorem togglePixel_dt (px py : Nat) : (s.togglePixel px py).dt = s.dt := rfl
@[simp] theorem togglePixel_st (px py : Nat) : (s.togglePixel px py).st = s.st := rfl
@[simp] theorem togglePixel_stack (px py : Nat) : (s.togglePixel px py).stack = s.stack := rfl
@[simp] theorem togglePixel_icount (px py : Nat) : (s.togglePixel px py).icount = s.icount := rfl
@[simp] theorem togglePixel_fb (px py : Nat) : (s.togglePixel px py).fb = s.fb.toggle (wrapPixel s.cfg px py) := rfl
@[simp] theorem togglePixel_mem (px py : Nat) : (s.togglePixel px py).mem = s.mem := rfl
@[simp] theorem togglePixel_keyInputs (px py : Nat) : (s.togglePixel px py).keyInputs = s.keyInputs := rfl
@[simp] theorem togglePixel_keySamples (px py : Nat) : (s.togglePixel px py).keySamples = s.keySamples := rfl
@[simp] theorem togglePixel_rndInputs (px py : Nat) : (s.togglePixel px py).rndInputs = s.rndInputs := rfl
@[simp] theorem togglePixel_rndDraws (px py : Nat) : (s.togglePixel px py).rndDraws = s.rndDraws := rfl
@[simp] theorem togglePixel_dispDirty (px py : Nat) : (s.togglePixel px py).dispDirty = s.dispDirty := rfl
@[simp] theorem togglePixel_undefOp (px py : Nat) : (s.togglePixel px py).undefOp = s.undefOp := rfl
@[simp] theorem togglePixel_getV (px py : Nat) (k : Reg) : (s.togglePixel px py).getV k = s.getV k := rfl
@[simp] theorem togglePixel_readMem (px py : Nat) (a : Nat) : (s.togglePixel px py).readMem a = s.readMem a := rfl
@[simp] theorem togglePixel_keys (px py : Nat) : (s.togglePixel px py).keys = s.keys := rfl
@[simp] theorem togglePixel_rnd (px py : Nat) : (s.togglePixel px py).rnd = s.rnd := rfl
@[simp] theorem togglePixel_sp (px py : Nat) : (s.togglePixel px py).sp = s.sp := rfl

/-! ## `markDispDirty` -/

@[simp] theorem markDispDirty_cfg : s.markDispDirty.cfg = s.cfg := rfl
@[simp] theorem markDispDirty_v : s.markDispDirty.v = s.v := rfl
@[simp] theorem markDispDirty_pc : s.markDispDirty.pc = s.pc := rfl
@[simp] theorem markDispDirty_index : s.markDispDirty.index = s.index := rfl
@[simp] theorem markDispDirty_dt : s.markDispDirty.dt = s.dt := rfl
@[simp] theorem markDispDirty_st : s.markDispDirty.st = s.st := rfl
@[simp] theorem markDispDirty_stack : s.markDispDirty.stack = s.stack := rfl
@[simp] theorem markDispDirty_icount : s.markDispDirty.icount = s.icount := rfl
@[simp] theorem markDispDirty_fb : s.markDispDirty.fb = s.fb := rfl
@[simp] theorem markDispDirty_mem : s.markDispDirty.mem = s.mem := rfl
@[simp] theorem markDispDirty_keyInputs : s.markDispDirty.keyInputs = s.keyInputs := rfl
@[simp] theorem markDispDirty_keySamples : s.markDispDirty.keySamples = s.keySamples := rfl
@[simp] theorem markDispDirty_rndInputs : s.markDispDirty.rndInputs = s.rndInputs := rfl
@[simp] theorem markDispDirty_rndDraws : s.markDispDirty.rndDraws = s.rndDraws := rfl
@[simp] theorem markDispDirty_dispDirty : s.markDispDirty.dispDirty = true := rfl
@[simp] theorem markDispDirty_undefOp : s.markDispDirty.undefOp = s.undefOp := rfl
@[simp] theorem markDispDirty_getV (k : Reg) : s.markDispDirty.getV k = s.getV k := rfl
@[simp] theorem markDispDirty_readMem (a : Nat) : s.markDispDirty.readMem a = s.readMem a := rfl
@[simp] theorem markDispDirty_getPixel (px py : Nat) : s.markDispDirty.getPixel px py = s.getPixel px py := rfl
@[simp] theorem markDispDirty_keys : s.markDispDirty.keys = s.keys := rfl
@[simp] theorem markDispDirty_rnd : s.markDispDirty.rnd = s.rnd := rfl
@[simp] theorem markDispDirty_sp : s.markDispDirty.sp = s.sp := rfl

/-! ## `markUndefOp` -/

@[simp] theorem markUndefOp_cfg : s.markUndefOp.cfg = s.cfg := rfl
@[simp] theorem markUndefOp_v : s.markUndefOp.v = s.v := rfl
@[simp] theorem markUndefOp_pc : s.markUndefOp.pc = s.pc := rfl
@[simp] theorem markUndefOp_index : s.markUndefOp.index = s.index := rfl
@[simp] theorem markUndefOp_dt : s.markUndefOp.dt = s.dt := rfl
@[simp] theorem markUndefOp_st : s.markUndefOp.st = s.st := rfl
@[simp] theorem markUndefOp_stack : s.markUndefOp.stack = s.stack := rfl
@[simp] theorem markUndefOp_icount : s.markUndefOp.icount = s.icount := rfl
@[simp] theorem markUndefOp_fb : s.markUndefOp.fb = s.fb := rfl
@[simp] theorem markUndefOp_mem : s.markUndefOp.mem = s.mem := rfl
@[simp] theorem markUndefOp_keyInputs : s.markUndefOp.keyInputs = s.keyInputs := rfl
@[simp] theorem markUndefOp_keySamples : s.markUndefOp.keySamples = s.keySamples := rfl
@[simp] theorem markUndefOp_rndInputs : s.markUndefOp.rndInputs = s.rndInputs := rfl
@[simp] theorem markUndefOp_rndDraws : s.markUndefOp.rndDraws = s.rndDraws := rfl
@[simp] theorem markUndefOp_dispDirty : s.markUndefOp.dispDirty = s.dispDirty := rfl
@[simp] theorem markUndefOp_undefOp : s.markUndefOp.undefOp = true := rfl
@[simp] theorem markUndefOp_getV (k : Reg) : s.markUndefOp.getV k = s.getV k := rfl
@[simp] theorem markUndefOp_readMem (a : Nat) : s.markUndefOp.readMem a = s.readMem a := rfl
@[simp] theorem markUndefOp_getPixel (px py : Nat) : s.markUndefOp.getPixel px py = s.getPixel px py := rfl
@[simp] theorem markUndefOp_keys : s.markUndefOp.keys = s.keys := rfl
@[simp] theorem markUndefOp_rnd : s.markUndefOp.rnd = s.rnd := rfl
@[simp] theorem markUndefOp_sp : s.markUndefOp.sp = s.sp := rfl

/-! ## `rearm` -/

@[simp] theorem rearm_cfg : s.rearm.cfg = s.cfg := rfl
@[simp] theorem rearm_v : s.rearm.v = s.v := rfl
@[simp] theorem rearm_pc : s.rearm.pc = s.pc - 2 := rfl
@[simp] theorem rearm_index : s.rearm.index = s.index := rfl
@[simp] theorem rearm_dt : s.rearm.dt = s.dt := rfl
@[simp] theorem rearm_st : s.rearm.st = s.st := rfl
@[simp] theorem rearm_stack : s.rearm.stack = s.stack := rfl
@[simp] theorem rearm_icount : s.rearm.icount = s.icount := rfl
@[simp] theorem rearm_fb : s.rearm.fb = s.fb := rfl
@[simp] theorem rearm_mem : s.rearm.mem = s.mem := rfl
@[simp] theorem rearm_keyInputs : s.rearm.keyInputs = s.keyInputs := rfl
@[simp] theorem rearm_keySamples : s.rearm.keySamples = s.keySamples := rfl
@[simp] theorem rearm_rndInputs : s.rearm.rndInputs = s.rndInputs := rfl
@[simp] theorem rearm_rndDraws : s.rearm.rndDraws = s.rndDraws := rfl
@[simp] theorem rearm_dispDirty : s.rearm.dispDirty = s.dispDirty := rfl
@[simp] theorem rearm_undefOp : s.rearm.undefOp = s.undefOp := rfl
@[simp] theorem rearm_getV (k : Reg) : s.rearm.getV k = s.getV k := rfl
@[simp] theorem rearm_readMem (a : Nat) : s.rearm.readMem a = s.readMem a := rfl
@[simp] theorem rearm_getPixel (px py : Nat) : s.rearm.getPixel px py = s.getPixel px py := rfl
@[simp] theorem rearm_keys : s.rearm.keys = s.keys := rfl
@[simp] theorem rearm_rnd : s.rearm.rnd = s.rnd := rfl
@[simp] theorem rearm_sp : s.rearm.sp = s.sp := rfl

/-! ## `drawRnd` -/

@[simp] theorem drawRnd_cfg : s.drawRnd.cfg = s.cfg := rfl
@[simp] theorem drawRnd_v : s.drawRnd.v = s.v := rfl
@[simp] theorem drawRnd_pc : s.drawRnd.pc = s.pc := rfl
@[simp] theorem drawRnd_index : s.drawRnd.index = s.index := rfl
@[simp] theorem drawRnd_dt : s.drawRnd.dt = s.dt := rfl
@[simp] theorem drawRnd_st : s.drawRnd.st = s.st := rfl
@[simp] theorem drawRnd_stack : s.drawRnd.stack = s.stack := rfl
@[simp] theorem drawRnd_icount : s.drawRnd.icount = s.icount := rfl
@[simp] theorem drawRnd_fb : s.drawRnd.fb = s.fb := rfl
@[simp] theorem drawRnd_mem : s.drawRnd.mem = s.mem := rfl
@[simp] theorem drawRnd_keyInputs : s.drawRnd.keyInputs = s.keyInputs := rfl
@[simp] theorem drawRnd_keySamples : s.drawRnd.keySamples = s.keySamples := rfl
@[simp] theorem drawRnd_rndInputs : s.drawRnd.rndInputs = s.rndInputs.tail := rfl
@[simp] theorem drawRnd_rndDraws : s.drawRnd.rndDraws = s.rndDraws + 1 := rfl
@[simp] theorem drawRnd_dispDirty : s.drawRnd.dispDirty = s.dispDirty := rfl
@[simp] theorem drawRnd_undefOp : s.drawRnd.undefOp = s.undefOp := rfl
@[simp] theorem drawRnd_getV (k : Reg) : s.drawRnd.getV k = s.getV k := rfl
@[simp] theorem drawRnd_readMem (a : Nat) : s.drawRnd.readMem a = s.readMem a := rfl
@[simp] theorem drawRnd_getPixel (px py : Nat) : s.drawRnd.getPixel px py = s.getPixel px py := rfl
@[simp] theorem drawRnd_keys : s.drawRnd.keys = s.keys := rfl
@[simp] theorem drawRnd_sp : s.drawRnd.sp = s.sp := rfl

/-! ## `nextKeys` -/

@[simp] theorem nextKeys_cfg : s.nextKeys.cfg = s.cfg := rfl
@[simp] theorem nextKeys_v : s.nextKeys.v = s.v := rfl
@[simp] theorem nextKeys_pc : s.nextKeys.pc = s.pc := rfl
@[simp] theorem nextKeys_index : s.nextKeys.index = s.index := rfl
@[simp] theorem nextKeys_dt : s.nextKeys.dt = s.dt := rfl
@[simp] theorem nextKeys_st : s.nextKeys.st = s.st := rfl
@[simp] theorem nextKeys_stack : s.nextKeys.stack = s.stack := rfl
@[simp] theorem nextKeys_icount : s.nextKeys.icount = s.icount := rfl
@[simp] theorem nextKeys_fb : s.nextKeys.fb = s.fb := rfl
@[simp] theorem nextKeys_mem : s.nextKeys.mem = s.mem := rfl
@[simp] theorem nextKeys_keyInputs : s.nextKeys.keyInputs = s.keyInputs.tail := rfl
@[simp] theorem nextKeys_keySamples : s.nextKeys.keySamples = s.keySamples + 1 := rfl
@[simp] theorem nextKeys_rndInputs : s.nextKeys.rndInputs = s.rndInputs := rfl
@[simp] theorem nextKeys_rndDraws : s.nextKeys.rndDraws = s.rndDraws := rfl
@[simp] theorem nextKeys_dispDirty : s.nextKeys.dispDirty = s.dispDirty := rfl
@[simp] theorem nextKeys_undefOp : s.nextKeys.undefOp = s.undefOp := rfl
@[simp] theorem nextKeys_getV (k : Reg) : s.nextKeys.getV k = s.getV k := rfl
@[simp] theorem nextKeys_readMem (a : Nat) : s.nextKeys.readMem a = s.readMem a := rfl
@[simp] theorem nextKeys_getPixel (px py : Nat) : s.nextKeys.getPixel px py = s.getPixel px py := rfl
@[simp] theorem nextKeys_rnd : s.nextKeys.rnd = s.rnd := rfl
@[simp] theorem nextKeys_sp : s.nextKeys.sp = s.sp := rfl

/-! ## `clearStrobes` -/

@[simp] theorem clearStrobes_cfg : s.clearStrobes.cfg = s.cfg := rfl
@[simp] theorem clearStrobes_v : s.clearStrobes.v = s.v := rfl
@[simp] theorem clearStrobes_pc : s.clearStrobes.pc = s.pc := rfl
@[simp] theorem clearStrobes_index : s.clearStrobes.index = s.index := rfl
@[simp] theorem clearStrobes_dt : s.clearStrobes.dt = s.dt := rfl
@[simp] theorem clearStrobes_st : s.clearStrobes.st = s.st := rfl
@[simp] theorem clearStrobes_stack : s.clearStrobes.stack = s.stack := rfl
@[simp] theorem clearStrobes_icount : s.clearStrobes.icount = s.icount := rfl
@[simp] theorem clearStrobes_fb : s.clearStrobes.fb = s.fb := rfl
@[simp] theorem clearStrobes_mem : s.clearStrobes.mem = s.mem := rfl
@[simp] theorem clearStrobes_keyInputs : s.clearStrobes.keyInputs = s.keyInputs := rfl
@[simp] theorem clearStrobes_keySamples : s.clearStrobes.keySamples = s.keySamples := rfl
@[simp] theorem clearStrobes_rndInputs : s.clearStrobes.rndInputs = s.rndInputs := rfl
@[simp] theorem clearStrobes_rndDraws : s.clearStrobes.rndDraws = s.rndDraws := rfl
@[simp] theorem clearStrobes_dispDirty : s.clearStrobes.dispDirty = false := rfl
@[simp] theorem clearStrobes_undefOp : s.clearStrobes.undefOp = false := rfl
@[simp] theorem clearStrobes_getV (k : Reg) : s.clearStrobes.getV k = s.getV k := rfl
@[simp] theorem clearStrobes_readMem (a : Nat) : s.clearStrobes.readMem a = s.readMem a := rfl
@[simp] theorem clearStrobes_getPixel (px py : Nat) : s.clearStrobes.getPixel px py = s.getPixel px py := rfl
@[simp] theorem clearStrobes_keys : s.clearStrobes.keys = s.keys := rfl
@[simp] theorem clearStrobes_rnd : s.clearStrobes.rnd = s.rnd := rfl
@[simp] theorem clearStrobes_sp : s.clearStrobes.sp = s.sp := rfl

/-! ## `advance` -/

@[simp] theorem advance_cfg : s.advance.cfg = s.cfg := rfl
@[simp] theorem advance_v : s.advance.v = s.v := rfl
@[simp] theorem advance_pc : s.advance.pc = s.pc + 2 := rfl
@[simp] theorem advance_index : s.advance.index = s.index := rfl
@[simp] theorem advance_dt : s.advance.dt = s.dt := rfl
@[simp] theorem advance_st : s.advance.st = s.st := rfl
@[simp] theorem advance_stack : s.advance.stack = s.stack := rfl
@[simp] theorem advance_icount : s.advance.icount = s.icount := rfl
@[simp] theorem advance_fb : s.advance.fb = s.fb := rfl
@[simp] theorem advance_mem : s.advance.mem = s.mem := rfl
@[simp] theorem advance_keyInputs : s.advance.keyInputs = s.keyInputs := rfl
@[simp] theorem advance_keySamples : s.advance.keySamples = s.keySamples := rfl
@[simp] theorem advance_rndInputs : s.advance.rndInputs = s.rndInputs := rfl
@[simp] theorem advance_rndDraws : s.advance.rndDraws = s.rndDraws := rfl
@[simp] theorem advance_dispDirty : s.advance.dispDirty = false := rfl
@[simp] theorem advance_undefOp : s.advance.undefOp = false := rfl
@[simp] theorem advance_getV (k : Reg) : s.advance.getV k = s.getV k := rfl
@[simp] theorem advance_readMem (a : Nat) : s.advance.readMem a = s.readMem a := rfl
@[simp] theorem advance_getPixel (px py : Nat) : s.advance.getPixel px py = s.getPixel px py := rfl
@[simp] theorem advance_keys : s.advance.keys = s.keys := rfl
@[simp] theorem advance_rnd : s.advance.rnd = s.rnd := rfl
@[simp] theorem advance_sp : s.advance.sp = s.sp := rfl

/-! ## `tick` -/

@[simp] theorem tick_cfg : s.tick.cfg = s.cfg := rfl
@[simp] theorem tick_v : s.tick.v = s.v := rfl
@[simp] theorem tick_pc : s.tick.pc = s.pc := rfl
@[simp] theorem tick_index : s.tick.index = s.index := rfl
@[simp] theorem tick_dt : s.tick.dt = tickDown s.dt := rfl
@[simp] theorem tick_st : s.tick.st = tickDown s.st := rfl
@[simp] theorem tick_stack : s.tick.stack = s.stack := rfl
@[simp] theorem tick_icount : s.tick.icount = s.icount := rfl
@[simp] theorem tick_fb : s.tick.fb = s.fb := rfl
@[simp] theorem tick_mem : s.tick.mem = s.mem := rfl
@[simp] theorem tick_keyInputs : s.tick.keyInputs = s.keyInputs := rfl
@[simp] theorem tick_keySamples : s.tick.keySamples = s.keySamples := rfl
@[simp] theorem tick_rndInputs : s.tick.rndInputs = s.rndInputs := rfl
@[simp] theorem tick_rndDraws : s.tick.rndDraws = s.rndDraws := rfl
@[simp] theorem tick_dispDirty : s.tick.dispDirty = s.dispDirty := rfl
@[simp] theorem tick_undefOp : s.tick.undefOp = s.undefOp := rfl
@[simp] theorem tick_getV (k : Reg) : s.tick.getV k = s.getV k := rfl
@[simp] theorem tick_readMem (a : Nat) : s.tick.readMem a = s.readMem a := rfl
@[simp] theorem tick_getPixel (px py : Nat) : s.tick.getPixel px py = s.getPixel px py := rfl
@[simp] theorem tick_keys : s.tick.keys = s.keys := rfl
@[simp] theorem tick_rnd : s.tick.rnd = s.rnd := rfl
@[simp] theorem tick_sp : s.tick.sp = s.sp := rfl

/-! ## `count` -/

@[simp] theorem count_cfg : s.count.cfg = s.cfg := rfl
@[simp] theorem count_v : s.count.v = s.v := rfl
@[simp] theorem count_pc : s.count.pc = s.pc := rfl
@[simp] theorem count_index : s.count.index = s.index := rfl
@[simp] theorem count_dt : s.count.dt = s.dt := rfl
@[simp] theorem count_st : s.count.st = s.st := rfl
@[simp] theorem count_stack : s.count.stack = s.stack := rfl
@[simp] theorem count_icount : s.count.icount = s.icount + 1 := rfl
@[simp] theorem count_fb : s.count.fb = s.fb := rfl
@[simp] theorem count_mem : s.count.mem = s.mem := rfl
@[simp] theorem count_keyInputs : s.count.keyInputs = s.keyInputs := rfl
@[simp] theorem count_keySamples : s.count.keySamples = s.keySamples := rfl
@[simp] theorem count_rndInputs : s.count.rndInputs = s.rndInputs := rfl
@[simp] theorem count_rndDraws : s.count.rndDraws = s.rndDraws := rfl
@[simp] theorem count_dispDirty : s.count.dispDirty = s.dispDirty := rfl
@[simp] theorem count_undefOp : s.count.undefOp = s.undefOp := rfl
@[simp] theorem count_getV (k : Reg) : s.count.getV k = s.getV k := rfl
@[simp] theorem count_readMem (a : Nat) : s.count.readMem a = s.readMem a := rfl
@[simp] theorem count_getPixel (px py : Nat) : s.count.getPixel px py = s.getPixel px py := rfl
@[simp] theorem count_keys : s.count.keys = s.keys := rfl
@[simp] theorem count_rnd : s.count.rnd = s.rnd := rfl
@[simp] theorem count_sp : s.count.sp = s.sp := rfl

/-! ## `complete` -/

@[simp] theorem complete_cfg : s.complete.cfg = s.cfg := rfl
@[simp] theorem complete_v : s.complete.v = s.v := rfl
@[simp] theorem complete_pc : s.complete.pc = s.pc := rfl
@[simp] theorem complete_index : s.complete.index = s.index := rfl
@[simp] theorem complete_dt : s.complete.dt = tickDown s.dt := rfl
@[simp] theorem complete_st : s.complete.st = tickDown s.st := rfl
@[simp] theorem complete_stack : s.complete.stack = s.stack := rfl
@[simp] theorem complete_icount : s.complete.icount = s.icount + 1 := rfl
@[simp] theorem complete_fb : s.complete.fb = s.fb := rfl
@[simp] theorem complete_mem : s.complete.mem = s.mem := rfl
@[simp] theorem complete_keyInputs : s.complete.keyInputs = s.keyInputs.tail := rfl
@[simp] theorem complete_keySamples : s.complete.keySamples = s.keySamples + 1 := rfl
@[simp] theorem complete_rndInputs : s.complete.rndInputs = s.rndInputs := rfl
@[simp] theorem complete_rndDraws : s.complete.rndDraws = s.rndDraws := rfl
@[simp] theorem complete_dispDirty : s.complete.dispDirty = s.dispDirty := rfl
@[simp] theorem complete_undefOp : s.complete.undefOp = s.undefOp := rfl
@[simp] theorem complete_getV (k : Reg) : s.complete.getV k = s.getV k := rfl
@[simp] theorem complete_readMem (a : Nat) : s.complete.readMem a = s.readMem a := rfl
@[simp] theorem complete_getPixel (px py : Nat) : s.complete.getPixel px py = s.getPixel px py := rfl
@[simp] theorem complete_rnd : s.complete.rnd = s.rnd := rfl
@[simp] theorem complete_sp : s.complete.sp = s.sp := rfl

/-! ## `skipIf` -/

theorem skipIf_pc (c : Bool) : (s.skipIf c).pc = if c then s.pc + 2 else s.pc := by cases c <;> rfl

@[simp] theorem skipIf_cfg (c : Bool) : (s.skipIf c).cfg = s.cfg := by cases c <;> rfl
@[simp] theorem skipIf_v (c : Bool) : (s.skipIf c).v = s.v := by cases c <;> rfl
@[simp] theorem skipIf_index (c : Bool) : (s.skipIf c).index = s.index := by cases c <;> rfl
@[simp] theorem skipIf_dt (c : Bool) : (s.skipIf c).dt = s.dt := by cases c <;> rfl
@[simp] theorem skipIf_st (c : Bool) : (s.skipIf c).st = s.st := by cases c <;> rfl
@[simp] theorem skipIf_stack (c : Bool) : (s.skipIf c).stack = s.stack := by cases c <;> rfl
@[simp] theorem skipIf_icount (c : Bool) : (s.skipIf c).icount = s.icount := by cases c <;> rfl
@[simp] theorem skipIf_fb (c : Bool) : (s.skipIf c).fb = s.fb := by cases c <;> rfl
@[simp] theorem skipIf_mem (c : Bool) : (s.skipIf c).mem = s.mem := by cases c <;> rfl
@[simp] theorem skipIf_keyInputs (c : Bool) : (s.skipIf c).keyInputs = s.keyInputs := by cases c <;> rfl
@[simp] theorem skipIf_keySamples (c : Bool) : (s.skipIf c).keySamples = s.keySamples := by cases c <;> rfl
@[simp] theorem skipIf_rndInputs (c : Bool) : (s.skipIf c).rndInputs = s.rndInputs := by cases c <;> rfl
@[simp] theorem skipIf_rndDraws (c : Bool) : (s.skipIf c).rndDraws = s.rndDraws := by cases c <;> rfl
@[simp] theorem skipIf_dispDirty (c : Bool) : (s.skipIf c).dispDirty = s.dispDirty := by cases c <;> rfl
@[simp] theorem skipIf_undefOp (c : Bool) : (s.skipIf c).undefOp = s.undefOp := by cases c <;> rfl
@[simp] theorem skipIf_getV (c : Bool) (k : Reg) : (s.skipIf c).getV k = s.getV k := by cases c <;> rfl
@[simp] theorem skipIf_readMem (c : Bool) (a : Nat) : (s.skipIf c).readMem a = s.readMem a := by cases c <;> rfl
@[simp] theorem skipIf_getPixel (c : Bool) (px py : Nat) : (s.skipIf c).getPixel px py = s.getPixel px py := by cases c <;> rfl
@[simp] theorem skipIf_keys (c : Bool) : (s.skipIf c).keys = s.keys := by cases c <;> rfl
@[simp] theorem skipIf_rnd (c : Bool) : (s.skipIf c).rnd = s.rnd := by cases c <;> rfl
@[simp] theorem skipIf_sp (c : Bool) : (s.skipIf c).sp = s.sp := by cases c <;> rfl

/-! ## Reading a register after a write -/

theorem getV_setV (x k : Reg) (b : Byte) : (s.setV x b).getV k = if k = x then b else s.getV k := by
  simp [getV, setV, Vector.getElem_set, Fin.ext_iff, eq_comm]

@[simp] theorem getV_setV_same (x : Reg) (b : Byte) : (s.setV x b).getV x = b := by simp [getV_setV]

theorem getV_setVBlock (x k : Reg) (f : Reg → Byte) :
    (s.setVBlock x f).getV k = if k ≤ x then f k else s.getV k := by
  simp [getV, setVBlock]

theorem getV_setFlagThenV (x k : Reg) (b : Byte) (c : Bool) :
    (s.setFlagThenV x b c).getV k = if k = x then b else if k = vf then flagByte c else s.getV k := by
  simp [setFlagThenV, getV_setV]

@[simp] theorem getPixel_clearFb (px py : Nat) : s.clearFb.getPixel px py = false := by
  simp [getPixel, Framebuffer.lit]

end Sys2Proof.Machine.State
end

