-- ==== Sys2Proof/Laws/Framebuffer.lean ====
section
/-! SUPPORT. The laws of the framebuffer: a cell after a toggle and after a draw, for every list of lit cells; the collision flag of a
draw; and the canonical form, which both keep. -/

namespace Sys2Proof.Machine.Framebuffer

theorem mem_insert {p q : Pixel} {fb : Framebuffer} : q ∈ insert p fb ↔ q = p ∨ q ∈ fb := by
  induction fb with
  | nil => simp [insert]
  | cons r rest ih => simp only [insert]; split_ifs <;> simp [ih, or_left_comm]

/-- A cell after another, or itself, was toggled. -/
theorem lit_toggle (fb : Framebuffer) (p q : Pixel) : (fb.toggle p).lit q = (fb.lit q ^^ decide (q = p)) := by
  by_cases hq : q = p
  · subst hq
    by_cases h : q ∈ fb <;> simp [toggle, lit, h, mem_insert]
  · by_cases h : p ∈ fb <;> simp [toggle, lit, h, mem_insert, hq]

@[simp] theorem draw_nil (fb : Framebuffer) : fb.draw [] = (fb, false) := rfl

theorem draw_cons (fb : Framebuffer) (p : Pixel) (ps : List Pixel) :
    fb.draw (p :: ps) = (((fb.toggle p).draw ps).1, fb.lit p || ((fb.toggle p).draw ps).2) := rfl

/-- A cell after a draw: toggled once for each time the list names it. -/
theorem lit_draw (ps : List Pixel) (fb : Framebuffer) (q : Pixel) :
    (fb.draw ps).1.lit q = (fb.lit q ^^ decide (ps.count q % 2 = 1)) := by
  induction ps generalizing fb with
  | nil => simp
  | cons p ps ih =>
    rw [draw_cons, ih, lit_toggle]
    by_cases h : q = p
    · subst h
      have hp : (ps.count q + 1) % 2 = 1 ↔ ¬ ps.count q % 2 = 1 := by omega
      by_cases hc : ps.count q % 2 = 1 <;> cases hl : fb.lit q <;> simp [hp, hc]
    · simp [List.count_cons_of_ne (Ne.symm h), h]

/-- The collision flag of a draw: some cell was 1 when its turn came. -/
theorem draw_flag (ps : List Pixel) (fb : Framebuffer) :
    (fb.draw ps).2 = true ↔
      ∃ pre p post, ps = pre ++ p :: post ∧ (fb.lit p ^^ decide (pre.count p % 2 = 1)) = true := by
  induction ps generalizing fb with
  | nil => simp
  | cons p ps ih =>
    rw [draw_cons]
    simp only [Bool.or_eq_true, ih]
    constructor
    · rintro (h | ⟨pre, q, post, rfl, hq⟩)
      · exact ⟨[], p, ps, rfl, by simpa using h⟩
      · refine ⟨p :: pre, q, post, rfl, ?_⟩
        rw [lit_toggle] at hq
        by_cases h : q = p
        · subst h
          have hp : (pre.count q + 1) % 2 = 1 ↔ ¬ pre.count q % 2 = 1 := by omega
          by_cases hc : pre.count q % 2 = 1 <;> cases hl : fb.lit q <;> simp_all
        · simpa [List.count_cons_of_ne (Ne.symm h), h] using hq
    · rintro ⟨pre, q, post, heq, hq⟩
      cases pre with
      | nil =>
        simp only [List.nil_append, List.cons.injEq] at heq
        exact .inl (by simpa [heq.1] using hq)
      | cons r pre =>
        simp only [List.cons_append, List.cons.injEq] at heq
        refine .inr ⟨pre, q, post, heq.2, ?_⟩
        rw [lit_toggle, heq.1]
        by_cases h : q = r
        · subst h
          have hp : (pre.count q + 1) % 2 = 1 ↔ ¬ pre.count q % 2 = 1 := by omega
          by_cases hc : pre.count q % 2 = 1 <;> cases hl : fb.lit q <;> simp_all
        · simpa [List.count_cons_of_ne (Ne.symm h), h] using hq

theorem before_trans {p q r : Pixel} (h : p.before q) (h' : q.before r) : p.before r := by
  simp only [Pixel.before] at *; omega

theorem before_total {p q : Pixel} (h : p ≠ q) (h' : ¬ p.before q) : q.before p := by
  have : ¬(p.1 = q.1 ∧ p.2 = q.2) := fun e => h (Prod.ext e.1 e.2)
  simp only [Pixel.before] at *; omega

theorem wf_nil (c : Config) : wf c [] := ⟨List.Pairwise.nil, fun _ h => absurd h List.not_mem_nil⟩

theorem pairwise_insert {p : Pixel} {fb : Framebuffer} (h : fb.Pairwise Pixel.before) (hp : p ∉ fb) :
    (insert p fb).Pairwise Pixel.before := by
  induction fb with
  | nil => simp [insert]
  | cons q rest ih =>
    obtain ⟨h1, h2⟩ := List.pairwise_cons.mp h
    simp only [insert]
    split_ifs with hlt
    · refine List.pairwise_cons.mpr ⟨fun r hr => ?_, h⟩
      rcases List.mem_cons.mp hr with rfl | hr
      · exact hlt
      · exact before_trans hlt (h1 r hr)
    · refine List.pairwise_cons.mpr ⟨fun r hr => ?_, ih h2 (fun hx => hp (List.mem_cons_of_mem _ hx))⟩
      rcases mem_insert.mp hr with rfl | hr
      · exact before_total (fun e => hp (by simp [e])) hlt
      · exact h1 r hr

/-- A toggle inside the grid keeps the canonical form. -/
theorem wf_toggle {c : Config} {fb : Framebuffer} (h : wf c fb) {p : Pixel} (hp : p.1 < c.fbWidth ∧ p.2 < c.fbHeight) :
    wf c (fb.toggle p) := by
  by_cases hl : p ∈ fb
  · simp only [toggle, lit, hl, decide_true, if_true]
    exact ⟨h.1.sublist List.filter_sublist, fun q hq => h.2 q (List.mem_of_mem_filter hq)⟩
  · simp only [toggle, lit, hl, decide_false, Bool.false_eq_true, if_false]
    refine ⟨pairwise_insert h.1 hl, fun q hq => ?_⟩
    rcases mem_insert.mp hq with rfl | hq
    · exact hp
    · exact h.2 q hq

/-- A draw inside the grid keeps the canonical form. -/
theorem wf_draw {c : Config} {fb : Framebuffer} (h : wf c fb) {ps : List Pixel}
    (hp : ∀ p ∈ ps, p.1 < c.fbWidth ∧ p.2 < c.fbHeight) : wf c (fb.draw ps).1 := by
  induction ps generalizing fb with
  | nil => exact h
  | cons p ps ih =>
    rw [draw_cons]
    exact ih (wf_toggle h (hp p (by simp))) (fun q hq => hp q (by simp [hq]))

theorem wrapPixel_in_grid {c : Config} (h : c.valid = true) (px py : Nat) :
    (wrapPixel c px py).1 < c.fbWidth ∧ (wrapPixel c px py).2 < c.fbHeight := by
  simp only [Config.valid, Bool.and_eq_true, decide_eq_true_eq] at h
  exact ⟨Nat.mod_lt _ (by omega), Nat.mod_lt _ (by omega)⟩

/-- Canonical framebuffers with the same lit cells are the same list. -/
theorem eq_of_lit_eq {fb fb' : Framebuffer} (h : fb.Pairwise Pixel.before) (h' : fb'.Pairwise Pixel.before)
    (hl : ∀ p, fb.lit p = fb'.lit p) : fb = fb' := by
  have irrefl : ∀ p : Pixel, ¬ p.before p := fun p hp => by simp only [Pixel.before] at hp; omega
  have asymm : ∀ p q : Pixel, p.before q → q.before p → p = q := fun p q h1 h2 => by
    simp only [Pixel.before] at h1 h2; omega
  refine List.Perm.eq_of_pairwise (fun p q _ _ => asymm p q) h h' ?_
  have nodup : ∀ l : Framebuffer, l.Pairwise Pixel.before → l.Nodup := fun l hp =>
    List.Pairwise.imp (fun {p q} hpq (e : p = q) => irrefl p (by rw [e] at hpq ⊢; exact hpq)) hp
  exact (List.perm_ext_iff_of_nodup (nodup fb h) (nodup fb' h')).mpr (fun p => by simpa [lit] using hl p)

end Sys2Proof.Machine.Framebuffer
end

