-- ==== Sys2Proof/Laws/Memory.lean ====
section
/-! SUPPORT. The laws of memory: a read after a write, for every listing; and the canonical form, which every write keeps. -/

namespace Sys2Proof.Machine.Memory

theorem read_erase (c : Config) (m : Memory) (a b : Nat) :
    read c (m.erase a) b = if b = a then unlisted c b else read c m b := by
  induction m with
  | nil => simp [erase, read]
  | cons cell rest ih =>
    simp only [erase] at ih ⊢
    by_cases h : cell.1 = a
    · simp only [h, ne_eq, not_true_eq_false, decide_false, List.filter_cons, Bool.false_eq_true, if_false, ih, read]
      split_ifs <;> simp_all
    · simp only [h, ne_eq, not_false_eq_true, decide_true, List.filter_cons, if_true, ih, read]
      split_ifs <;> simp_all

theorem read_insert (c : Config) (m : Memory) (a b : Nat) (v : Byte) (h : ∀ cell ∈ m, cell.1 ≠ a) :
    read c (insert a v m) b = if b = a then v else read c m b := by
  induction m with
  | nil => simp [insert, read, eq_comm]
  | cons cell rest ih =>
    have hc := h cell (by simp)
    have hr := ih (fun x hx => h x (by simp [hx]))
    simp only [insert]
    by_cases hlt : a < cell.1
    · simp only [hlt, if_true, read, eq_comm (a := b)]
    · simp only [hlt, if_false, read, hr]
      by_cases hcb : cell.1 = b
      · have hba : b ≠ a := hcb ▸ hc
        simp [hcb, hba]
      · simp [hcb]

theorem ne_of_mem_erase {m : Memory} {a : Nat} {cell : Host.Cell} (h : cell ∈ m.erase a) : cell.1 ≠ a := by
  simpa [erase] using (List.mem_filter.mp h).2

/-- A read after a write, for every listing. -/
theorem read_write (c : Config) (m : Memory) (a b : Nat) (v : Byte) :
    read c (m.write c a v) b = if b = a then v else read c m b := by
  unfold write
  by_cases hv : v = unlisted c a
  · rw [if_pos hv, read_erase]
    by_cases hb : b = a
    · rw [if_pos hb, if_pos hb, hb, hv]
    · rw [if_neg hb, if_neg hb]
  · rw [if_neg hv, read_insert c _ a b v (fun _ h => ne_of_mem_erase h), read_erase]
    by_cases hb : b = a
    · rw [if_pos hb, if_pos hb]
    · rw [if_neg hb, if_neg hb, if_neg hb]

/-- A read after bytes written from `base` up. -/
theorem read_writeList (c : Config) (bytes : List Byte) (m : Memory) (base a : Nat) :
    read c (m.writeList c base bytes) a =
      if base ≤ a ∧ a < base + bytes.length then bytes.getD (a - base) 0 else read c m a := by
  induction bytes generalizing m base with
  | nil =>
    simp [writeList]
  | cons v rest ih =>
    simp only [writeList, ih, read_write, List.length_cons]
    by_cases h0 : a = base
    · subst h0
      simp
    · by_cases h1 : base + 1 ≤ a ∧ a < base + 1 + rest.length
      · have h2 : base ≤ a ∧ a < base + (rest.length + 1) := by omega
        have h3 : a - base = (a - (base + 1)) + 1 := by omega
        simp [h1, h2, h3]
      · have h2 : ¬(base ≤ a ∧ a < base + (rest.length + 1)) := by omega
        rw [if_neg h1, if_neg h0, if_neg h2]

theorem mem_insert {a : Nat} {v : Byte} {m : Memory} {cell : Host.Cell} :
    cell ∈ insert a v m ↔ cell = (a, v) ∨ cell ∈ m := by
  induction m with
  | nil => simp [insert]
  | cons q rest ih => simp only [insert]; split_ifs <;> simp [ih, or_left_comm]

theorem wf_nil (c : Config) : wf c [] := ⟨List.Pairwise.nil, fun _ h => absurd h List.not_mem_nil⟩

theorem wf_erase {c : Config} {m : Memory} (h : wf c m) (a : Nat) : wf c (m.erase a) :=
  ⟨h.1.sublist List.filter_sublist, fun cell hc => h.2 cell (List.mem_of_mem_filter hc)⟩

theorem pairwise_insert {a : Nat} {v : Byte} {m : Memory} (h : m.Pairwise (fun p q => p.1 < q.1))
    (hne : ∀ cell ∈ m, cell.1 ≠ a) : (insert a v m).Pairwise (fun p q => p.1 < q.1) := by
  induction m with
  | nil => simp [insert]
  | cons q rest ih =>
    have hq := hne q (by simp)
    obtain ⟨h1, h2⟩ := List.pairwise_cons.mp h
    simp only [insert]
    split_ifs with hlt
    · refine List.pairwise_cons.mpr ⟨fun cell hc => ?_, h⟩
      rcases List.mem_cons.mp hc with rfl | hc
      · exact hlt
      · exact lt_trans hlt (h1 cell hc)
    · refine List.pairwise_cons.mpr ⟨fun cell hc => ?_, ih h2 (fun x hx => hne x (by simp [hx]))⟩
      rcases mem_insert.mp hc with rfl | hc
      · simp only at *; omega
      · exact h1 cell hc

/-- A write inside the address space keeps the canonical form. -/
theorem wf_write {c : Config} {m : Memory} (h : wf c m) {a : Nat} (ha : a < 4096) (v : Byte) : wf c (m.write c a v) := by
  unfold write
  split_ifs with hv
  · exact wf_erase h a
  · have he := wf_erase h a
    refine ⟨pairwise_insert he.1 (fun _ hc => ne_of_mem_erase hc), fun cell hc => ?_⟩
    rcases mem_insert.mp hc with rfl | hc
    · exact ⟨ha, hv⟩
    · exact he.2 cell hc

/-- Bytes written inside the address space keep the canonical form. -/
theorem wf_writeList {c : Config} {bytes : List Byte} {m : Memory} (h : wf c m) {base : Nat}
    (hb : base + bytes.length ≤ 4096) : wf c (m.writeList c base bytes) := by
  induction bytes generalizing m base with
  | nil => simpa [writeList] using h
  | cons v rest ih =>
    simp only [List.length_cons] at hb
    exact ih (wf_write h (by omega) v) (by omega)

theorem read_of_lt {c : Config} {m : Memory} {a : Nat} (h : ∀ cell ∈ m, a < cell.1) : read c m a = unlisted c a := by
  induction m with
  | nil => rfl
  | cons q rest ih =>
    have hq := h q (by simp)
    rw [read, if_neg (by omega)]
    exact ih (fun x hx => h x (by simp [hx]))

/-- Canonical memories that read the same are the same list. -/
theorem eq_of_read_eq {c : Config} {m m' : Memory} (h : wf c m) (h' : wf c m')
    (hr : ∀ a, read c m a = read c m' a) : m = m' := by
  induction m generalizing m' with
  | nil =>
    cases m' with
    | nil => rfl
    | cons q rest => have := hr q.1; have := (h'.2 q (by simp)).2; simp_all [read]
  | cons p ps ih =>
    cases m' with
    | nil => have := hr p.1; have := (h.2 p (by simp)).2; simp_all [read]
    | cons q qs =>
      obtain ⟨hp1, hp2⟩ := List.pairwise_cons.mp h.1
      obtain ⟨hq1, hq2⟩ := List.pairwise_cons.mp h'.1
      have key : p.1 = q.1 := by
        rcases lt_trichotomy p.1 q.1 with hlt | heq | hgt
        · have h1 := hr p.1
          have h2 : read c (q :: qs) p.1 = unlisted c p.1 := read_of_lt (fun cell hc => by
            rcases List.mem_cons.mp hc with rfl | hc
            · exact hlt
            · exact lt_trans hlt (hq1 cell hc))
          rw [h2] at h1
          exact absurd (by simpa [read] using h1) (h.2 p (by simp)).2
        · exact heq
        · have h1 := hr q.1
          have h2 : read c (p :: ps) q.1 = unlisted c q.1 := read_of_lt (fun cell hc => by
            rcases List.mem_cons.mp hc with rfl | hc
            · exact hgt
            · exact lt_trans hgt (hp1 cell hc))
          rw [h2] at h1
          exact absurd (by simpa [read] using h1.symm) (h'.2 q (by simp)).2
      have hval : p.2 = q.2 := by have := hr p.1; simpa [read, key] using this
      have hpq : p = q := Prod.ext key hval
      subst hpq
      congr 1
      refine ih ⟨hp2, fun x hx => h.2 x (by simp [hx])⟩ ⟨hq2, fun x hx => h'.2 x (by simp [hx])⟩ (fun a => ?_)
      by_cases ha : p.1 = a
      · subst ha; rw [read_of_lt hp1, read_of_lt hq1]
      · simpa [read, ha] using hr a

end Sys2Proof.Machine.Memory
end

