-- ==== Sys2Proof/Laws/Ops.lean ====
section
/-! SUPPORT. One lemma per shared operation that says all it can do: the range check, loads and stores, the stack, the fetch, the
timers, the keys, the sprite. -/

namespace Sys2Proof.Machine

/-- A range of bytes faults exactly when it is not empty and leaves memory. -/
theorem rangeFault_eq_none {base len : Nat} : rangeFault base len = none ↔ len = 0 ∨ base + (len - 1) ≤ 0xFFF := by
  simp only [rangeFault]
  split_ifs with h
  · simp only [false_iff]; omega
  · simp only [true_iff]; omega

/-- The fault of a range is the address of its first byte out of memory. -/
theorem rangeFault_eq_some {base len : Nat} {f : Fault} :
    rangeFault base len = some f ↔ (len ≠ 0 ∧ 0xFFF < base + (len - 1)) ∧ f = .addressOutOfRange (max base 0x1000) := by
  simp only [rangeFault]
  split_ifs with h
  · simp only [Option.some.injEq, h, true_and, ne_eq, not_false_eq_true, eq_comm]
  · simp only [false_iff]; exact fun hc => h hc.1

/-- What a load answers. -/
theorem loadBytes_cases (s : State) (base len : Nat) :
    (rangeFault base len = none ∧
      s.loadBytes base len = .ok ((List.range len).map (fun k => s.readMem (base + k)))) ∨
    (∃ f, rangeFault base len = some f ∧ s.loadBytes base len = .error f) := by
  cases h : rangeFault base len with
  | none => exact .inl ⟨rfl, by simp [State.loadBytes, h]⟩
  | some f => exact .inr ⟨f, rfl, by simp [State.loadBytes, h]⟩

/-- What a store answers. -/
theorem storeBytes_cases (s : State) (base : Nat) (bytes : List Byte) :
    (rangeFault base bytes.length = none ∧
      s.storeBytes base bytes = .ok { s with mem := s.mem.writeList s.cfg base bytes }) ∨
    (∃ f, rangeFault base bytes.length = some f ∧ s.storeBytes base bytes = .error f) := by
  cases h : rangeFault base bytes.length with
  | none => exact .inl ⟨rfl, by simp [State.storeBytes, h]⟩
  | some f => exact .inr ⟨f, rfl, by simp [State.storeBytes, h]⟩

/-- What `storeAtIndex` answers. -/
theorem storeAtIndex_cases (s : State) (bytes : List Byte) :
    (rangeFault s.base bytes.length = none ∧
      s.storeAtIndex bytes = .next { s with mem := s.mem.writeList s.cfg s.base bytes }) ∨
    (∃ f, rangeFault s.base bytes.length = some f ∧ s.storeAtIndex bytes = .fault f) := by
  rcases storeBytes_cases s s.base bytes with ⟨h, e⟩ | ⟨f, h, e⟩
  · exact .inl ⟨h, by simp [State.storeAtIndex, e]⟩
  · exact .inr ⟨f, h, by simp [State.storeAtIndex, e, raise]⟩

/-- A byte after bytes were stored. -/
theorem readMem_writeList (s : State) (base a : Nat) (bytes : List Byte) :
    State.readMem { s with mem := s.mem.writeList s.cfg base bytes } a =
      if base ≤ a ∧ a < base + bytes.length then bytes.getD (a - base) 0 else s.readMem a :=
  Memory.read_writeList s.cfg bytes s.mem base a

/-- What `Push` answers (R51). -/
theorem push_cases (s : State) (w : Word) :
    (s.stackFull = false ∧ s.push w = .ok { s with stack := w :: s.stack }) ∨
    (s.stackFull = true ∧ s.push w = .error .stackOverflow) := by
  cases h : s.stackFull
  · exact .inl ⟨rfl, by simp [State.push, h]⟩
  · exact .inr ⟨rfl, by simp [State.push, h]⟩

/-- What `Pop` answers (R51). -/
theorem pop_cases (s : State) :
    (∃ w rest, s.stack = w :: rest ∧ s.pop = .ok (w, { s with stack := rest })) ∨
    (s.stack = [] ∧ s.pop = .error .stackUnderflow) := by
  cases h : s.stack with
  | nil => exact .inr ⟨rfl, by simp [State.pop, h]⟩
  | cons w rest => exact .inl ⟨w, rest, rfl, by simp [State.pop, h]⟩

/-- When the stack is full (R51). -/
theorem stackFull_iff (s : State) : s.stackFull = true ↔ ∃ d, s.cfg.stackDepth = some d ∧ d ≤ s.sp := by
  cases h : s.cfg.stackDepth <;> simp [State.stackFull, h]

/-- What the fetch answers (R131). -/
theorem fetch_cases (s : State) :
    (s.pc.toNat ≤ 0xFFE ∧ s.fetch = .ok (wordOfBytes (s.readMem s.pc.toNat) (s.readMem (s.pc.toNat + 1)))) ∨
    (0xFFF ≤ s.pc.toNat ∧ s.fetch = .error (.addressOutOfRange (max s.pc.toNat 0x1000))) := by
  cases h : rangeFault s.pc.toNat 2 with
  | none =>
    have := rangeFault_eq_none.mp h
    exact .inl ⟨by omega, by simp [State.fetch, h]⟩
  | some f =>
    obtain ⟨h1, rfl⟩ := rangeFault_eq_some.mp h
    exact .inr ⟨by omega, by simp [State.fetch, h]⟩

/-- A timer one step on, as a number (R135). -/
theorem tickDown_toNat (b : Byte) : (tickDown b).toNat = b.toNat - 1 := by
  by_cases h : b = 0
  · simp [tickDown, h]
  · have h0 : b.toNat ≠ 0 := fun e => h (BitVec.eq_of_toNat_eq e)
    have := b.isLt
    have h1 : (1 : Byte).toNat = 1 := rfl
    simp only [tickDown, h, if_false, BitVec.toNat_sub, h1]; omega

/-- No key is pressed exactly when the vector is 0 (R243). -/
theorem lowestKey_eq_none (keys : Word) : lowestKey keys = none ↔ keys = 0 := by
  simp only [lowestKey, Option.map_eq_none_iff, List.find?_eq_none, List.mem_range]
  constructor
  · intro h
    apply BitVec.eq_of_getLsbD_eq
    intro i hi
    simpa using h i hi
  · rintro rfl i _
    simp

/-- The least pressed key (R243). -/
theorem lowestKey_eq_some (keys : Word) (b : Byte) :
    lowestKey keys = some b ↔ b.toNat < 16 ∧ keys.getLsbD b.toNat = true ∧ ∀ j < b.toNat, keys.getLsbD j = false := by
  simp only [lowestKey, Option.map_eq_some_iff, List.find?_range_eq_some]
  constructor
  · rintro ⟨k, ⟨h1, h2, h3⟩, rfl⟩
    have hk : k < 16 := by simpa using h2
    have : (BitVec.ofNat 8 k).toNat = k := by simp only [BitVec.toNat_ofNat]; omega
    rw [this]
    exact ⟨hk, h1, fun j hj => by simpa using h3 j hj⟩
  · rintro ⟨h1, h2, h3⟩
    exact ⟨b.toNat, ⟨h2, by simpa using h1, fun j hj => by simpa using h3 j hj⟩, by simp⟩

/-- Every target of a sprite lies in the grid. -/
theorem spriteTargets_in_grid {c : Config} (h : c.valid = true) (vx : Nat) (rows : List Byte) (y : Nat) :
    ∀ p ∈ spriteTargets c vx y rows, p.1 < c.fbWidth ∧ p.2 < c.fbHeight := by
  induction rows generalizing y with
  | nil => simp [spriteTargets]
  | cons b rest ih =>
    intro p hp
    rcases List.mem_append.mp hp with hp | hp
    · simp only [rowTargets, List.mem_filterMap, Option.ite_none_right_eq_some, Option.some.injEq] at hp
      obtain ⟨col, -, -, rfl⟩ := hp
      exact Framebuffer.wrapPixel_in_grid h _ _
    · exact ih (y + 1) p hp

/-- The targets of a sprite row by row: row `r` starts `r` rows below the first (R222). -/
theorem spriteTargets_eq_flatMap (c : Config) (vx : Nat) (rows : List Byte) (y : Nat) :
    spriteTargets c vx y rows = (List.range rows.length).flatMap (fun r => rowTargets c vx (y + r) (rows.getD r 0)) := by
  induction rows generalizing y with
  | nil => simp [spriteTargets]
  | cons b rest ih =>
    rw [spriteTargets, ih, List.length_cons, List.range_succ_eq_map, List.flatMap_cons, List.flatMap_map]
    simp [Nat.add_assoc, Nat.add_comm 1]

end Sys2Proof.Machine
end

