-- ==== Sys2Proof/Laws/Step.lean ====
section
/-! SUPPORT. What a step can do, said once; runs of steps; and the algebra of frames. -/

namespace Sys2Proof.Machine

/-- A step that answers a state fetched a word, ran it on the advanced state, and completed. -/
theorem step_eq_next {s t : State} : step s = .next t ↔
    ∃ w m, s.fetch = .ok w ∧ exec (decode w) s.advance = .next m ∧ t = m.complete := by
  unfold step
  cases hf : s.fetch with
  | error f => simp [raise]
  | ok w => cases he : exec (decode w) s.advance <;> simp [finishStep, he, eq_comm]

/-- A step that faults did so in the fetch or in the instruction. -/
theorem step_eq_fault {s : State} {f : Fault} : step s = .fault f ↔
    s.fetch = .error f ∨ ∃ w, s.fetch = .ok w ∧ exec (decode w) s.advance = .fault f := by
  unfold step
  cases hf : s.fetch with
  | error g => simp [raise]
  | ok w => cases he : exec (decode w) s.advance <;> simp [finishStep, he]

/-- A step that refuses did so in the instruction. -/
theorem step_eq_refused {s : State} {r : Refusal} : step s = .refused r ↔
    ∃ w, s.fetch = .ok w ∧ exec (decode w) s.advance = .refused r := by
  unfold step
  cases hf : s.fetch with
  | error g => simp [raise]
  | ok w => cases he : exec (decode w) s.advance <;> simp [finishStep, he]

/-- The step of a state whose next instruction is known. -/
theorem step_of_executes {s : State} {i : Instr} (h : Executes s i) : step s = finishStep (exec i s.advance) := by
  obtain ⟨w, hf, rfl⟩ := h
  simp [step, hf]

/-- What a state executes is one instruction. -/
theorem executes_unique {s : State} {i j : Instr} (h : Executes s i) (h' : Executes s j) : i = j := by
  obtain ⟨w, hf, rfl⟩ := h
  obtain ⟨w', hf', rfl⟩ := h'
  rw [hf] at hf'
  cases hf'
  rfl

/-- A state that executes something fetches below `0xFFF`. -/
theorem pc_le_of_executes {s : State} {i : Instr} (h : Executes s i) : s.pc.toNat ≤ 0xFFE := by
  obtain ⟨w, hf, -⟩ := h
  rcases fetch_cases s with ⟨hp, -⟩ | ⟨-, he⟩
  · exact hp
  · rw [hf] at he; cases he

/-- A run of one more step, the step first. -/
theorem run_succ_eq_next {k : Nat} {s t : State} : core.run (k + 1) s = .next t ↔
    ∃ u, step s = .next u ∧ core.run k u = .next t := by
  cases h : step s with
  | next u =>
    have hs : core.step s = .next u := h
    simp [Host.Core.run, hs]
  | fault f =>
    have hs : core.step s = .fault f := h
    simp [Host.Core.run, hs]
  | refused r =>
    have hs : core.step s = .refused r := h
    simp [Host.Core.run, hs]

/-- A run of one more step, the step last. -/
theorem run_succ_eq_next_last {k : Nat} {s t : State} : core.run (k + 1) s = .next t ↔
    ∃ u : State, core.run k s = .next u ∧ step u = .next t := by
  induction k generalizing s with
  | zero =>
    rw [run_succ_eq_next]
    exact ⟨fun ⟨u, h1, h2⟩ => ⟨s, rfl, by cases h2; exact h1⟩, fun ⟨u, h1, h2⟩ => ⟨t, by cases h1; exact h2, rfl⟩⟩
  | succ k ih =>
    rw [run_succ_eq_next]
    constructor
    · rintro ⟨v, h1, h2⟩
      obtain ⟨u, h3, h4⟩ := ih.mp h2
      exact ⟨u, run_succ_eq_next.mpr ⟨v, h1, h3⟩, h4⟩
    · rintro ⟨u, h1, h2⟩
      obtain ⟨v, h3, h4⟩ := run_succ_eq_next.mp h1
      exact ⟨v, h3, ih.mpr ⟨u, h4, h2⟩⟩

@[simp] theorem run_zero (s : State) : core.run 0 s = .next s := rfl

/-- The state a fault leaves when the fetch failed. -/
theorem stateAfterFault_of_fetch_error {s : State} {f : Fault} (h : s.fetch = .error f) :
    stateAfterFault s = s.clearStrobes.nextKeys := by simp [stateAfterFault, h]

/-- The state a fault leaves when the instruction faulted. -/
theorem stateAfterFault_of_fetch_ok {s : State} {w : Word} (h : s.fetch = .ok w) :
    stateAfterFault s = s.advance.nextKeys := by simp [stateAfterFault, h]

/-- An instruction that faults makes its Step fault, and the Step leaves `pc` alone advanced. -/
theorem faultsInExecution_of_exec {s : State} {i : Instr} {f : Fault} (h : Executes s i) (he : exec i s.advance = .fault f) :
    FaultsInExecution s f := by
  obtain ⟨w, hf, rfl⟩ := h
  refine ⟨by simp [step, hf, finishStep, he], by rw [stateAfterFault_of_fetch_ok hf]; rfl, ?_⟩
  rw [stateAfterFault_of_fetch_ok hf]
  intro p hp
  cases p <;> simp_all [Part.Same]

theorem ChangesOnly.refl (touched : Part → Prop) (s : State) : ChangesOnly touched s s := by
  intro p _; cases p <;> simp [Part.Same]

theorem ChangesOnly.trans {touched : Part → Prop} {s t u : State} (h : ChangesOnly touched s t)
    (h' : ChangesOnly touched t u) : ChangesOnly touched s u := by
  intro p hp
  have h1 := h p hp
  have h2 := h' p hp
  cases p <;> simp_all [Part.Same]

theorem ChangesOnly.mono {touched touched' : Part → Prop} {s t : State} (h : ChangesOnly touched s t)
    (hsub : ∀ p, touched p → touched' p) : ChangesOnly touched' s t := fun p hp => h p (fun ht => hp (hsub p ht))

end Sys2Proof.Machine
end

