-- ==== Sys2Proof/Laws/Exec.lean ====
section
/-! SUPPORT. What the meanings that can stop answer, said once: stores, block load and draw in and out of range, and every way an
instruction can fault. -/

namespace Sys2Proof.Machine

/-- The digits of a byte are three bytes. -/
@[simp] theorem decimalDigits_length (b : Byte) : (decimalDigits b).length = 3 := rfl

/-- The block of `Fx55` has one byte for each register. -/
@[simp] theorem vBlock_length (s : State) (x : Reg) : (s.vBlock x).length = x.val + 1 := by
  have := x.isLt
  simp only [State.vBlock, List.length_take, Vector.length_toList]
  omega

/-- Byte `k` of the block of `Fx55` is `V[k]`. -/
theorem vBlock_getD (s : State) {x k : Reg} (h : k ≤ x) : (s.vBlock x).getD k.val 0 = s.getV k := by
  have := k.isLt
  have h' : k.val ≤ x.val := h
  have hl : k.val < (s.vBlock x).length := by rw [vBlock_length]; omega
  rw [List.getD_eq_getElem _ _ hl]
  simp [State.vBlock, State.getV]

/-- A store that stays in memory. -/
theorem storeAtIndex_eq_next {s : State} {bytes : List Byte} (h : s.index.toNat + (bytes.length - 1) ≤ 0xFFF) :
    s.storeAtIndex bytes = .next { s with mem := s.mem.writeList s.cfg s.index.toNat bytes } := by
  rcases storeAtIndex_cases s bytes with ⟨-, e⟩ | ⟨f, hf, -⟩
  · exact e
  · obtain ⟨h1, -⟩ := rangeFault_eq_some.mp hf
    simp only [State.base] at h1; omega

/-- A store that leaves memory. -/
theorem storeAtIndex_eq_fault {s : State} {bytes : List Byte} (h0 : bytes.length ≠ 0)
    (h : 0xFFF < s.index.toNat + (bytes.length - 1)) :
    s.storeAtIndex bytes = .fault (.addressOutOfRange (max s.index.toNat 0x1000)) := by
  rcases storeAtIndex_cases s bytes with ⟨hn, -⟩ | ⟨f, hf, e⟩
  · have := rangeFault_eq_none.mp hn
    simp only [State.base] at this; omega
  · obtain ⟨-, rfl⟩ := rangeFault_eq_some.mp hf
    exact e

/-- Bytes stored change the cells they are stored to and nothing else. -/
theorem writeList_changesOnly (s : State) (base : Nat) (bytes : List Byte) :
    ChangesOnly (fun p => ∃ k < bytes.length, p = Part.cell (base + k)) s
      { s with mem := s.mem.writeList s.cfg base bytes } := by
  intro p hp
  cases p
  case cell a =>
    simp only [Part.Same, readMem_writeList]
    rw [if_neg]
    exact fun h => hp ⟨a - base, by omega, by congr 1; omega⟩
  all_goals simp [Part.Same, State.getV, State.getPixel]

/-- `Fx65` that stays in memory. -/
theorem exec_ldVxMem_eq_next {s : State} {x : Reg} (h : s.index.toNat + x.val ≤ 0xFFF) :
    exec (.ldVxMem x) s = .next (s.setVBlock x (fun k =>
      ((List.range (x.val + 1)).map (fun k => s.readMem (s.index.toNat + k))).getD k.val 0)) := by
  rcases loadBytes_cases s s.base (x.val + 1) with ⟨-, e⟩ | ⟨f, hf, -⟩
  · simp only [exec, execLdVxMem, e]; rfl
  · obtain ⟨h1, -⟩ := rangeFault_eq_some.mp hf
    simp only [State.base] at h1; omega

/-- `Dxyn` that stays in memory draws the targets of the bytes at `I`. -/
theorem exec_drw_eq_next {s : State} {x y : Reg} {n : Fin 16} (h : n.val = 0 ∨ s.index.toNat + n.val - 1 ≤ 0xFFF) :
    exec (.drwVxVyN x y n) s =
      let drawn := s.fb.draw ((List.range n.val).flatMap (fun row =>
        rowTargets s.cfg (s.getV x).toNat ((s.getV y).toNat + row) (s.readMem (s.index.toNat + row))))
      .next ((s.setFb drawn.1).setV vf (flagByte drawn.2)) := by
  have key : spriteTargets s.cfg (s.getV x).toNat (s.getV y).toNat
      ((List.range n.val).map (fun k => s.readMem (s.base + k))) = (List.range n.val).flatMap (fun row =>
        rowTargets s.cfg (s.getV x).toNat ((s.getV y).toNat + row) (s.readMem (s.index.toNat + row))) := by
    rw [spriteTargets_eq_flatMap, List.length_map, List.length_range]
    refine List.flatMap_congr (fun r hr => ?_)
    have hr := List.mem_range.mp hr
    simp [List.getD_eq_getElem?_getD, hr, State.base]
  rcases loadBytes_cases s s.base n.val with ⟨-, e⟩ | ⟨f, hf, -⟩
  · simp only [exec, execDrwVxVyN, e, key]
  · obtain ⟨h1, -⟩ := rangeFault_eq_some.mp hf
    simp only [State.base] at h1; omega

/-- Every way an instruction can fault (R270): an empty stack, a full one, and a range of bytes that leaves memory. -/
theorem exec_eq_fault {i : Instr} {s : State} {f : Fault} : exec i s = .fault f ↔
    (i = .ret ∧ s.sp = 0 ∧ f = .stackUnderflow) ∨
    ((∃ nnn, i = .callNnn nnn) ∧ s.stackFull = true ∧ f = .stackOverflow) ∨
    (∃ len, rangeFault s.base len = some f ∧ ((∃ x y n, i = .drwVxVyN x y n ∧ len = n.val) ∨
      (∃ x, i = .ldBVx x ∧ len = 3) ∨ (∃ x, (i = .ldMemVx x ∨ i = .ldVxMem x) ∧ len = x.val + 1))) := by
  cases i
  case ret =>
    rcases pop_cases s with ⟨w, rest, h, e⟩ | ⟨h, e⟩
    · simp [exec, execRet, e, h, State.sp]
    · simp only [exec, execRet, e, raise, h, State.sp, Host.Outcome.fault.injEq, List.length_nil, true_and, reduceCtorEq,
        exists_false, false_and, or_false, and_false]
      exact eq_comm
  case callNnn nnn =>
    rcases push_cases s s.pc with ⟨h, e⟩ | ⟨h, e⟩
    · simp [exec, execCallNnn, e, h]
    · simp only [exec, execCallNnn, e, raise, h, Host.Outcome.fault.injEq, true_and, reduceCtorEq, exists_false, false_and,
        or_false, and_false, false_or, Instr.callNnn.injEq, exists_eq']
      exact eq_comm
  case drwVxVyN x y n =>
    rcases loadBytes_cases s s.base n.val with ⟨h, e⟩ | ⟨g, h, e⟩ <;> simp [exec, execDrwVxVyN, e, raise, h]
  case ldBVx x =>
    rcases storeAtIndex_cases s (decimalDigits (s.getV x)) with ⟨h, e⟩ | ⟨g, h, e⟩ <;>
      rw [decimalDigits_length] at h <;> simp [exec, execLdBVx, e, h]
  case ldMemVx x =>
    rcases storeAtIndex_cases s (s.vBlock x) with ⟨h, e⟩ | ⟨g, h, e⟩ <;>
      rw [vBlock_length] at h <;> simp [exec, execLdMemVx, e, h]
  case ldVxMem x =>
    rcases loadBytes_cases s s.base (x.val + 1) with ⟨h, e⟩ | ⟨g, h, e⟩ <;> simp [exec, execLdVxMem, e, raise, h]
  case ldVxK x => cases hk : lowestKey s.keys <;> simp [exec, execLdVxK, hk]
  all_goals
    simp only [reduceCtorEq, false_and, exists_false, and_false, or_false, iff_false]
    intro h
    cases h

end Sys2Proof.Machine
end

