-- ==== Sys2Proof/Laws/PerInstr.lean ====
section
/-! SUPPORT. Per instruction: its encoding selects its own row of the opcode table (R106). -/

namespace Sys2Proof.Laws.EncodesItsRow

/-- The encoding selects the row of the instruction's mnemonic; a no-op has no row. -/
def Statement (i : Instr) : Prop :=
  (∃ r ∈ opcodeRows, r.mnemonic = i.mnemonic ∧ r.selects (encode i) = true) ∨ ∃ w, i = .nop w

/-- From a row of the table and the value of the masked word. -/
theorem of_row {i : Instr} (r : OpcodeRow) (hr : r ∈ opcodeRows) (hm : r.mnemonic = i.mnemonic)
    (h : encode i &&& r.mask = r.value) : Statement i :=
  .inl ⟨r, hr, hm, by simpa [OpcodeRow.selects] using h⟩

theorem cls : Statement .cls :=
  of_row ⟨"CLS", 0x00E0, 0xFFFF⟩ (by decide) rfl (by decide)

theorem ret : Statement .ret :=
  of_row ⟨"RET", 0x00EE, 0xFFFF⟩ (by decide) rfl (by decide)

theorem jpNnn (nnn : Address) : Statement (.jpNnn nnn) := by
  refine of_row ⟨"JP_nnn", 0x1000, 0xF000⟩ (by decide) rfl ((and_F000_eq_iff (by decide)).mpr ?_)
  have := nnn.isLt
  simp only [encode, encodeA_toNat (by decide : 0x1 < 16), BitVec.ofNat_eq_ofNat, BitVec.toNat_ofNat]; omega

theorem callNnn (nnn : Address) : Statement (.callNnn nnn) := by
  refine of_row ⟨"CALL_nnn", 0x2000, 0xF000⟩ (by decide) rfl ((and_F000_eq_iff (by decide)).mpr ?_)
  have := nnn.isLt
  simp only [encode, encodeA_toNat (by decide : 0x2 < 16), BitVec.ofNat_eq_ofNat, BitVec.toNat_ofNat]; omega

theorem seVxNn (x : Reg) (nn : Byte) : Statement (.seVxNn x nn) := by
  refine of_row ⟨"SE_Vx__nn", 0x3000, 0xF000⟩ (by decide) rfl ((and_F000_eq_iff (by decide)).mpr ?_)
  have := x.isLt; have := nn.isLt
  simp only [encode, encodeRI_toNat (by decide : 0x3 < 16), BitVec.ofNat_eq_ofNat, BitVec.toNat_ofNat]; omega

theorem sneVxNn (x : Reg) (nn : Byte) : Statement (.sneVxNn x nn) := by
  refine of_row ⟨"SNE_Vx__nn", 0x4000, 0xF000⟩ (by decide) rfl ((and_F000_eq_iff (by decide)).mpr ?_)
  have := x.isLt; have := nn.isLt
  simp only [encode, encodeRI_toNat (by decide : 0x4 < 16), BitVec.ofNat_eq_ofNat, BitVec.toNat_ofNat]; omega

theorem seVxVy (x : Reg) (y : Reg) : Statement (.seVxVy x y) := by
  refine of_row ⟨"SE_Vx__Vy", 0x5000, 0xF00F⟩ (by decide) rfl ((and_F00F_eq_iff (by decide)).mpr ?_)
  have := x.isLt; have := y.isLt
  simp only [encode, encodeRR_toNat (by decide : 0x5 < 16) (by decide : 0x0 < 16), BitVec.ofNat_eq_ofNat, BitVec.toNat_ofNat]; omega

theorem ldVxNn (x : Reg) (nn : Byte) : Statement (.ldVxNn x nn) := by
  refine of_row ⟨"LD_Vx__nn", 0x6000, 0xF000⟩ (by decide) rfl ((and_F000_eq_iff (by decide)).mpr ?_)
  have := x.isLt; have := nn.isLt
  simp only [encode, encodeRI_toNat (by decide : 0x6 < 16), BitVec.ofNat_eq_ofNat, BitVec.toNat_ofNat]; omega

theorem addVxNn (x : Reg) (nn : Byte) : Statement (.addVxNn x nn) := by
  refine of_row ⟨"ADD_Vx__nn", 0x7000, 0xF000⟩ (by decide) rfl ((and_F000_eq_iff (by decide)).mpr ?_)
  have := x.isLt; have := nn.isLt
  simp only [encode, encodeRI_toNat (by decide : 0x7 < 16), BitVec.ofNat_eq_ofNat, BitVec.toNat_ofNat]; omega

theorem ldVxVy (x : Reg) (y : Reg) : Statement (.ldVxVy x y) := by
  refine of_row ⟨"LD_Vx__Vy", 0x8000, 0xF00F⟩ (by decide) rfl ((and_F00F_eq_iff (by decide)).mpr ?_)
  have := x.isLt; have := y.isLt
  simp only [encode, encodeRR_toNat (by decide : 0x8 < 16) (by decide : 0x0 < 16), BitVec.ofNat_eq_ofNat, BitVec.toNat_ofNat]; omega

theorem orVxVy (x : Reg) (y : Reg) : Statement (.orVxVy x y) := by
  refine of_row ⟨"OR_Vx__Vy", 0x8001, 0xF00F⟩ (by decide) rfl ((and_F00F_eq_iff (by decide)).mpr ?_)
  have := x.isLt; have := y.isLt
  simp only [encode, encodeRR_toNat (by decide : 0x8 < 16) (by decide : 0x1 < 16), BitVec.ofNat_eq_ofNat, BitVec.toNat_ofNat]; omega

theorem andVxVy (x : Reg) (y : Reg) : Statement (.andVxVy x y) := by
  refine of_row ⟨"AND_Vx__Vy", 0x8002, 0xF00F⟩ (by decide) rfl ((and_F00F_eq_iff (by decide)).mpr ?_)
  have := x.isLt; have := y.isLt
  simp only [encode, encodeRR_toNat (by decide : 0x8 < 16) (by decide : 0x2 < 16), BitVec.ofNat_eq_ofNat, BitVec.toNat_ofNat]; omega

theorem xorVxVy (x : Reg) (y : Reg) : Statement (.xorVxVy x y) := by
  refine of_row ⟨"XOR_Vx__Vy", 0x8003, 0xF00F⟩ (by decide) rfl ((and_F00F_eq_iff (by decide)).mpr ?_)
  have := x.isLt; have := y.isLt
  simp only [encode, encodeRR_toNat (by decide : 0x8 < 16) (by decide : 0x3 < 16), BitVec.ofNat_eq_ofNat, BitVec.toNat_ofNat]; omega

theorem addVxVy (x : Reg) (y : Reg) : Statement (.addVxVy x y) := by
  refine of_row ⟨"ADD_Vx__Vy", 0x8004, 0xF00F⟩ (by decide) rfl ((and_F00F_eq_iff (by decide)).mpr ?_)
  have := x.isLt; have := y.isLt
  simp only [encode, encodeRR_toNat (by decide : 0x8 < 16) (by decide : 0x4 < 16), BitVec.ofNat_eq_ofNat, BitVec.toNat_ofNat]; omega

theorem subVxVy (x : Reg) (y : Reg) : Statement (.subVxVy x y) := by
  refine of_row ⟨"SUB_Vx__Vy", 0x8005, 0xF00F⟩ (by decide) rfl ((and_F00F_eq_iff (by decide)).mpr ?_)
  have := x.isLt; have := y.isLt
  simp only [encode, encodeRR_toNat (by decide : 0x8 < 16) (by decide : 0x5 < 16), BitVec.ofNat_eq_ofNat, BitVec.toNat_ofNat]; omega

theorem shrVx (x : Reg) (y : Reg) : Statement (.shrVx x y) := by
  refine of_row ⟨"SHR_Vx", 0x8006, 0xF00F⟩ (by decide) rfl ((and_F00F_eq_iff (by decide)).mpr ?_)
  have := x.isLt; have := y.isLt
  simp only [encode, encodeRR_toNat (by decide : 0x8 < 16) (by decide : 0x6 < 16), BitVec.ofNat_eq_ofNat, BitVec.toNat_ofNat]; omega

theorem subnVxVy (x : Reg) (y : Reg) : Statement (.subnVxVy x y) := by
  refine of_row ⟨"SUBN_Vx__Vy", 0x8007, 0xF00F⟩ (by decide) rfl ((and_F00F_eq_iff (by decide)).mpr ?_)
  have := x.isLt; have := y.isLt
  simp only [encode, encodeRR_toNat (by decide : 0x8 < 16) (by decide : 0x7 < 16), BitVec.ofNat_eq_ofNat, BitVec.toNat_ofNat]; omega

theorem shlVx (x : Reg) (y : Reg) : Statement (.shlVx x y) := by
  refine of_row ⟨"SHL_Vx", 0x800E, 0xF00F⟩ (by decide) rfl ((and_F00F_eq_iff (by decide)).mpr ?_)
  have := x.isLt; have := y.isLt
  simp only [encode, encodeRR_toNat (by decide : 0x8 < 16) (by decide : 0xE < 16), BitVec.ofNat_eq_ofNat, BitVec.toNat_ofNat]; omega

theorem sneVxVy (x : Reg) (y : Reg) : Statement (.sneVxVy x y) := by
  refine of_row ⟨"SNE_Vx__Vy", 0x9000, 0xF00F⟩ (by decide) rfl ((and_F00F_eq_iff (by decide)).mpr ?_)
  have := x.isLt; have := y.isLt
  simp only [encode, encodeRR_toNat (by decide : 0x9 < 16) (by decide : 0x0 < 16), BitVec.ofNat_eq_ofNat, BitVec.toNat_ofNat]; omega

theorem ldINnn (nnn : Address) : Statement (.ldINnn nnn) := by
  refine of_row ⟨"LD_I__nnn", 0xA000, 0xF000⟩ (by decide) rfl ((and_F000_eq_iff (by decide)).mpr ?_)
  have := nnn.isLt
  simp only [encode, encodeA_toNat (by decide : 0xA < 16), BitVec.ofNat_eq_ofNat, BitVec.toNat_ofNat]; omega

theorem jpV0Nnn (nnn : Address) : Statement (.jpV0Nnn nnn) := by
  refine of_row ⟨"JP_V0__nnn", 0xB000, 0xF000⟩ (by decide) rfl ((and_F000_eq_iff (by decide)).mpr ?_)
  have := nnn.isLt
  simp only [encode, encodeA_toNat (by decide : 0xB < 16), BitVec.ofNat_eq_ofNat, BitVec.toNat_ofNat]; omega

theorem rndVxNn (x : Reg) (nn : Byte) : Statement (.rndVxNn x nn) := by
  refine of_row ⟨"RND_Vx__nn", 0xC000, 0xF000⟩ (by decide) rfl ((and_F000_eq_iff (by decide)).mpr ?_)
  have := x.isLt; have := nn.isLt
  simp only [encode, encodeRI_toNat (by decide : 0xC < 16), BitVec.ofNat_eq_ofNat, BitVec.toNat_ofNat]; omega

theorem drwVxVyN (x : Reg) (y : Reg) (n : Fin 16) : Statement (.drwVxVyN x y n) := by
  refine of_row ⟨"DRW_Vx__Vy__n", 0xD000, 0xF000⟩ (by decide) rfl ((and_F000_eq_iff (by decide)).mpr ?_)
  have := x.isLt; have := y.isLt; have := n.isLt
  simp only [encode, encodeRR_toNat (by decide : 0xD < 16) n.isLt, BitVec.ofNat_eq_ofNat, BitVec.toNat_ofNat]; omega

theorem skpVx (x : Reg) : Statement (.skpVx x) := by
  refine of_row ⟨"SKP_Vx", 0xE09E, 0xF0FF⟩ (by decide) rfl ((and_F0FF_eq_iff (by decide)).mpr ?_)
  have := x.isLt
  simp only [encode, encodeRI_toNat (by decide : 0xE < 16), BitVec.ofNat_eq_ofNat, BitVec.toNat_ofNat]; omega

theorem sknpVx (x : Reg) : Statement (.sknpVx x) := by
  refine of_row ⟨"SKNP_Vx", 0xE0A1, 0xF0FF⟩ (by decide) rfl ((and_F0FF_eq_iff (by decide)).mpr ?_)
  have := x.isLt
  simp only [encode, encodeRI_toNat (by decide : 0xE < 16), BitVec.ofNat_eq_ofNat, BitVec.toNat_ofNat]; omega

theorem ldVxDt (x : Reg) : Statement (.ldVxDt x) := by
  refine of_row ⟨"LD_Vx__DT", 0xF007, 0xF0FF⟩ (by decide) rfl ((and_F0FF_eq_iff (by decide)).mpr ?_)
  have := x.isLt
  simp only [encode, encodeRI_toNat (by decide : 0xF < 16), BitVec.ofNat_eq_ofNat, BitVec.toNat_ofNat]; omega

theorem ldVxK (x : Reg) : Statement (.ldVxK x) := by
  refine of_row ⟨"LD_Vx__K", 0xF00A, 0xF0FF⟩ (by decide) rfl ((and_F0FF_eq_iff (by decide)).mpr ?_)
  have := x.isLt
  simp only [encode, encodeRI_toNat (by decide : 0xF < 16), BitVec.ofNat_eq_ofNat, BitVec.toNat_ofNat]; omega

theorem ldDtVx (x : Reg) : Statement (.ldDtVx x) := by
  refine of_row ⟨"LD_DT__Vx", 0xF015, 0xF0FF⟩ (by decide) rfl ((and_F0FF_eq_iff (by decide)).mpr ?_)
  have := x.isLt
  simp only [encode, encodeRI_toNat (by decide : 0xF < 16), BitVec.ofNat_eq_ofNat, BitVec.toNat_ofNat]; omega

theorem ldStVx (x : Reg) : Statement (.ldStVx x) := by
  refine of_row ⟨"LD_ST__Vx", 0xF018, 0xF0FF⟩ (by decide) rfl ((and_F0FF_eq_iff (by decide)).mpr ?_)
  have := x.isLt
  simp only [encode, encodeRI_toNat (by decide : 0xF < 16), BitVec.ofNat_eq_ofNat, BitVec.toNat_ofNat]; omega

theorem addIVx (x : Reg) : Statement (.addIVx x) := by
  refine of_row ⟨"ADD_I__Vx", 0xF01E, 0xF0FF⟩ (by decide) rfl ((and_F0FF_eq_iff (by decide)).mpr ?_)
  have := x.isLt
  simp only [encode, encodeRI_toNat (by decide : 0xF < 16), BitVec.ofNat_eq_ofNat, BitVec.toNat_ofNat]; omega

theorem ldFVx (x : Reg) : Statement (.ldFVx x) := by
  refine of_row ⟨"LD_F__Vx", 0xF029, 0xF0FF⟩ (by decide) rfl ((and_F0FF_eq_iff (by decide)).mpr ?_)
  have := x.isLt
  simp only [encode, encodeRI_toNat (by decide : 0xF < 16), BitVec.ofNat_eq_ofNat, BitVec.toNat_ofNat]; omega

theorem ldBVx (x : Reg) : Statement (.ldBVx x) := by
  refine of_row ⟨"LD_B__Vx", 0xF033, 0xF0FF⟩ (by decide) rfl ((and_F0FF_eq_iff (by decide)).mpr ?_)
  have := x.isLt
  simp only [encode, encodeRI_toNat (by decide : 0xF < 16), BitVec.ofNat_eq_ofNat, BitVec.toNat_ofNat]; omega

theorem ldMemVx (x : Reg) : Statement (.ldMemVx x) := by
  refine of_row ⟨"LD__I___Vx", 0xF055, 0xF0FF⟩ (by decide) rfl ((and_F0FF_eq_iff (by decide)).mpr ?_)
  have := x.isLt
  simp only [encode, encodeRI_toNat (by decide : 0xF < 16), BitVec.ofNat_eq_ofNat, BitVec.toNat_ofNat]; omega

theorem ldVxMem (x : Reg) : Statement (.ldVxMem x) := by
  refine of_row ⟨"LD_Vx___I", 0xF065, 0xF0FF⟩ (by decide) rfl ((and_F0FF_eq_iff (by decide)).mpr ?_)
  have := x.isLt
  simp only [encode, encodeRI_toNat (by decide : 0xF < 16), BitVec.ofNat_eq_ofNat, BitVec.toNat_ofNat]; omega

theorem nop (w : Word) : Statement (.nop w) := .inr ⟨w, rfl⟩

end Sys2Proof.Laws.EncodesItsRow
end

