-- ==== Sys2Proof/Machine/AsmText.lean ====
section
/-! DEFINITION. The characters of the assembly notation: reading a line (R114, R116) and printing a word (R117). A text is the list
of its characters (log 28). -/

namespace Sys2Proof

/-- The mnemonics of R115, `CLS` to `AND`. -/
def mnemonicSpellings0 : List (List Char × AsmName) :=
  [(['C', 'L', 'S'], .cls), (['R', 'E', 'T'], .ret), (['J', 'P'], .jp),
   (['C', 'A', 'L', 'L'], .call), (['S', 'E'], .se), (['S', 'N', 'E'], .sne),
   (['L', 'D'], .ld), (['A', 'D', 'D'], .add), (['O', 'R'], .or),
   (['A', 'N', 'D'], .and)]

/-- The mnemonics of R115 and R116, `XOR` to `NOP`. -/
def mnemonicSpellings1 : List (List Char × AsmName) :=
  [(['X', 'O', 'R'], .xor), (['S', 'U', 'B'], .sub), (['S', 'H', 'R'], .shr),
   (['S', 'U', 'B', 'N'], .subn), (['S', 'H', 'L'], .shl), (['R', 'N', 'D'], .rnd),
   (['D', 'R', 'W'], .drw), (['S', 'K', 'P'], .skp), (['S', 'K', 'N', 'P'], .sknp),
   (['D', 'W'], .dw), (['N', 'O', 'P'], .nop)]

/-- How mnemonics are written. -/
def mnemonicSpellings : List (List Char × AsmName) := mnemonicSpellings0 ++ mnemonicSpellings1

/-- The hexadecimal digits in the order of their values; the first ten are the decimal ones. -/
def digitChars : List Char := "0123456789ABCDEF".toList

/-- The value of a digit, which may be written in either case: its place among the digits. -/
def digitValue (c : Char) : Option Nat := digitChars.idxOf? c.toUpper

/-- The value of digits of a radix, after digits of value `acc`. -/
def digitsValue (radix : Nat) : Nat → List Char → Option Nat
  | acc, [] => some acc
  | acc, c :: rest =>
    match digitValue c with
    | some d => if d < radix then digitsValue radix (acc * radix + d) rest else none
    | none => none

/-- A number: decimal, or hexadecimal with `0x` (R114). -/
def parseNumber : List Char → Option Nat
  | '0' :: 'x' :: d :: rest => digitsValue 16 0 (d :: rest)
  | d :: rest => digitsValue 10 0 (d :: rest)
  | [] => none

/-- A register: `V` and a hexadecimal digit, case-insensitive (R114). -/
def parseRegister : List Char → Option Reg
  | [v, d] => if v = 'V' ∨ v = 'v' then (digitValue d).map (Fin.ofNat 16) else none
  | _ => none

/-- An operand: a special name, a register, a number, or else a label (R114). DESIGN CHOICE
(log 28): a label begins with a letter, and a text that has another reading is no label. -/
def parseOperand (text : List Char) : Option AsmOperand :=
  if text = ['I'] then some .index
  else if text = ['[', 'I', ']'] then some .atIndex
  else if text = ['D', 'T'] then some .dt
  else if text = ['S', 'T'] then some .st
  else if text = ['K'] then some .key
  else if text = ['F'] then some .font
  else if text = ['B'] then some .digits
  else match parseRegister text, parseNumber text with
    | some x, _ => some (.reg x)
    | none, some n => some (.num n)
    | none, none => if text.head?.any Char.isAlpha then some (.label text) else none

/-- The text without white space at its ends. -/
def trimText (text : List Char) : List Char :=
  ((text.dropWhile Char.isWhitespace).reverse.dropWhile Char.isWhitespace).reverse

/-- The pieces of a text between commas. -/
def splitCommas : List Char → List (List Char)
  | [] => [[]]
  | c :: rest =>
    if c = ',' then [] :: splitCommas rest
    else match splitCommas rest with
      | piece :: pieces => (c :: piece) :: pieces
      | [] => [[c]]

/-- The comma-separated operands of a text, none of an empty one. -/
def operandTexts (text : List Char) : List (List Char) :=
  if text = [] then [] else (splitCommas text).map trimText

/-- A mnemonic or a directive with its operands (R114, R116). DESIGN CHOICE (log 28): a line without a mnemonic (blank, a comment or a
label alone), on which R114 is silent, is accepted and emits nothing; so is `.byte` with no operand. -/
def parseStatement (text : List Char) : Option AsmStatement :=
  let word := text.takeWhile (fun c => !c.isWhitespace)
  let operands := operandTexts (trimText (text.dropWhile (fun c => !c.isWhitespace)))
  if text = [] then some .empty
  else if word = ['.', 'o', 'r', 'g'] then
    match operands.mapM parseNumber with
    | some [addr] => some (.org addr)
    | some _ | none => none
  else if word = ['.', 'b', 'y', 't', 'e'] then (operands.mapM parseNumber).map .bytes
  else match mnemonicSpellings.lookup word, operands.mapM parseOperand with
    | some name, some operands => some (.word name operands)
    | some _, none | none, _ => none

/-- A line: optional `label:`, a statement, optional `; comment` (R114). DESIGN CHOICE (log 28): whatever stands before the first colon
is the label. -/
def parseLine (text : List Char) : Option AsmLine :=
  let body := text.takeWhile (fun c => c ≠ ';')
  if ':' ∈ body then
    (parseStatement (trimText (body.dropWhile (fun c => c ≠ ':')).tail)).map
      (fun statement => ⟨some (trimText (body.takeWhile (fun c => c ≠ ':'))), statement⟩)
  else (parseStatement (trimText body)).map (fun statement => ⟨none, statement⟩)

/-- The bytes of a program with their addresses, from its lines (R114, R116). -/
def assembleText (lines : List (List Char)) : Option (List (Nat × Byte)) := (lines.mapM parseLine).bind assembleProgram

/-- The digit of a value below 16. -/
def digitChar (d : Nat) : Char := digitChars.getD d '0'

/-- That many hexadecimal digits of a number. -/
def hexDigits : Nat → Nat → List Char
  | 0, _ => []
  | width + 1, n => hexDigits width (n / 16) ++ [digitChar (n % 16)]

/-- How many digits the number of a line is printed with: four for the word of `DW` (R117), and, DESIGN CHOICE (log 28), since R117
says only that operands are in hexadecimal, one for `n`, three for `nnn` and two for `nn`, leading zeros included. -/
def hexWidth : AsmName → List AsmOperand → Nat
  | .dw, _ => 4
  | .drw, _ => 1
  | .jp, _ | .call, _ | .ld, .index :: _ => 3
  | _, _ => 2

/-- An operand as it is printed (R117): a number in that many hexadecimal digits. -/
def printOperand (width : Nat) : AsmOperand → List Char
  | .reg x => ['V', digitChar x.val]
  | .num n => '0' :: 'x' :: hexDigits width n
  | .label text => text
  | .index => ['I']
  | .atIndex => ['[', 'I', ']']
  | .dt => ['D', 'T']
  | .st => ['S', 'T']
  | .key => ['K']
  | .font => ['F']
  | .digits => ['B']

/-- A mnemonic as it is printed. -/
def printName (name : AsmName) : List Char :=
  ((mnemonicSpellings.find? (fun row => row.2 = name)).map Prod.fst).getD []

/-- A line as it is printed. -/
def printLine (line : AsmName × List AsmOperand) : List Char :=
  printName line.1 ++ (if line.2 = [] then [] else ' ' :: [',', ' '].intercalate (line.2.map (printOperand (hexWidth line.1 line.2))))

/-- The text a word prints as (R117). -/
def disassembleText (w : Word) : List Char := printLine (disassemble w)

end Sys2Proof
end

