-- ==== Sys2Proof/Tests/Slice0.lean ====
section
/-! SUPPORT. The model's own tests: ill-formed terms, words written out from the encodings of R103 and R106, one Step at a time against
the vectors of spec/95_test_vectors.md (named in each line: A9, J5, ...), and for every statement with hypotheses a state that meets
them. -/

namespace Sys2Proof.Tests

open Sys2Proof Sys2Proof.Machine

/-- The next state of a result. -/
def nextOf : Result → Option State
  | .next s => some s
  | .fault _ | .refused _ => none

/-- The fault of a result. -/
def faultOf : Result → Option Fault
  | .fault f => some f
  | .next _ | .refused _ => none

/-- The reset state with some general registers written. -/
def regs (l : List (Reg × Byte)) : State := l.foldl (fun s p => s.setV p.1 p.2) State.reset

/-- The state with bytes placed from an address up. -/
def poke (s : State) (base : Nat) (bytes : List Byte) : State := { s with mem := s.mem.writeList s.cfg base bytes }

/-- The state with a word placed where the next fetch reads. -/
def withWord (w : Word) (s : State) : State := s.withFetchWord 16 w.toNat

/-- A fact about the state after the one Step that executes a word, the Step completing. -/
def after (w : Word) (s : State) (f : State → Bool) : Bool := (nextOf (step (withWord w s))).any f

/-- The one Step that executes a word faults so. -/
def faults (w : Word) (s : State) (f : Fault) : Bool := faultOf (step (withWord w s)) == some f

/-! ## Well-formedness: the one check, and what it refuses -/

theorem test_wellFormed_refuses_defined_words :
    (Instr.nop 0x00E0).wellFormed = false ∧ (Instr.nop 0x8124).wellFormed = false ∧ (Instr.nop 0xF065).wellFormed = false := by
  decide

theorem test_wellFormed_accepts_undefined_words :
    (Instr.nop 0x0000).wellFormed = true ∧ (Instr.nop 0x8128).wellFormed = true ∧ (Instr.nop 0xFFFF).wellFormed = true := by decide

/-! ## Decoding: every constructor from a word written bit by bit as R103 and R106 give it -/

theorem test_decode_control :
    decode 0b0000000011101110 = .ret ∧ decode 0b0001001010101001 = .jpNnn 0x2A9 ∧
    decode 0b0010101010111100 = .callNnn 0xABC ∧ decode 0b1011001100000000 = .jpV0Nnn 0x300 ∧
    decode 0b0011000111111110 = .seVxNn 1 0xFE ∧ decode 0b0100101000010000 = .sneVxNn 10 0x10 ∧
    decode 0b0101000100100000 = .seVxVy 1 2 ∧ decode 0b1001000100100000 = .sneVxVy 1 2 := by decide

theorem test_decode_load_alu :
    decode 0b0110111110101011 = .ldVxNn 15 0xAB ∧ decode 0b0111000011111111 = .addVxNn 0 0xFF ∧
    decode 0b1000000100100000 = .ldVxVy 1 2 ∧ decode 0b1000000100100001 = .orVxVy 1 2 ∧
    decode 0b1000000100100010 = .andVxVy 1 2 ∧ decode 0b1000000100100011 = .xorVxVy 1 2 ∧
    decode 0b1000000100100100 = .addVxVy 1 2 ∧ decode 0b1000000100100101 = .subVxVy 1 2 ∧
    decode 0b1000000100100110 = .shrVx 1 2 ∧ decode 0b1000000100100111 = .subnVxVy 1 2 ∧
    decode 0b1000000100101110 = .shlVx 1 2 ∧ decode 0b1100001100001111 = .rndVxNn 3 0x0F := by decide

theorem test_decode_index_memory :
    decode 0b1010000011111111 = .ldINnn 0x0FF ∧ decode 0b1111001000011110 = .addIVx 2 ∧
    decode 0b1111000000101001 = .ldFVx 0 ∧ decode 0b1111000000110011 = .ldBVx 0 ∧
    decode 0b1111001001010101 = .ldMemVx 2 ∧ decode 0b1111001001100101 = .ldVxMem 2 := by decide

theorem test_decode_display_keys_timers :
    decode 0b0000000011100000 = .cls ∧ decode 0b1101000000010010 = .drwVxVyN 0 1 2 ∧
    decode 0b1110001010011110 = .skpVx 2 ∧ decode 0b1110001010100001 = .sknpVx 2 ∧
    decode 0b1111001000001010 = .ldVxK 2 ∧ decode 0b1111000100000111 = .ldVxDt 1 ∧
    decode 0b1111000000010101 = .ldDtVx 0 ∧ decode 0b1111001100011000 = .ldStVx 3 := by decide

theorem test_decode_neighbours_are_nops :
    decode 0b0000000011100001 = .nop 0x00E1 ∧ decode 0b0101000100100001 = .nop 0x5121 ∧
    decode 0b1001000100101111 = .nop 0x912F ∧ decode 0b1000000100101000 = .nop 0x8128 ∧
    decode 0b1110001010011111 = .nop 0xE29F ∧ decode 0b1111001001100110 = .nop 0xF266 := by decide

theorem test_decodeBytes_big_endian : decodeBytes [0x8A, 0xB4, 0x77] = .ok (.addVxVy 10 11, [0x77]) := by decide

theorem test_decodeBytes_truncated : decodeBytes [0x8A] = .error .truncated ∧ decodeBytes [] = .error .truncated := by decide

theorem test_encode_words : encode (.drwVxVyN 0 1 2) = 0xD012 ∧ encodeBytes (.addVxVy 10 11) = [0x8A, 0xB4] := by decide

/-! ## Control flow -/

/-- J3: the most recent entry is popped. -/
theorem test_ret : after 0x00EE { State.reset with pc := 0x300, stack := [0x40A, 0x206] }
    (fun t => t.pc == 0x40A && t.stack == [0x206]) = true := by decide
/-- J5: nothing to pop; the state left behind has `pc` advanced and no tick. -/
theorem test_ret_underflow : faults 0x00EE { State.reset with dt := 3 } .stackUnderflow = true ∧
    (stateAfterFault (withWord 0x00EE { State.reset with dt := 3 })).pc = 0x202 ∧
    (stateAfterFault (withWord 0x00EE { State.reset with dt := 3 })).dt = 3 := by decide
/-- J1. -/
theorem test_jpNnn : after 0x12A9 State.reset (fun t => t.pc == 0x2A9) = true := by decide
/-- J2. -/
theorem test_callNnn : after 0x2ABC { State.reset with pc := 0x3F1 } (fun t => t.pc == 0xABC && t.stack == [0x3F3]) = true := by decide
/-- J6: the seventeenth call. -/
theorem test_call_overflow : faults 0x2200 { State.reset with stack := List.replicate 16 0x202 } .stackOverflow = true := by decide
/-- J7, J9. -/
theorem test_jpV0Nnn : after 0xBFFF (regs [(0, 0x02)]) (fun t => t.pc == 0x001) = true ∧
    after 0xB001 (regs [(0, 0xFF)]) (fun t => t.pc == 0x100) = true := by decide
/-- J10. -/
theorem test_seVxNn : after 0x3100 State.reset (fun t => t.pc == 0x204) = true ∧
    after 0x3100 (regs [(1, 3)]) (fun t => t.pc == 0x202) = true := by decide
/-- J11. -/
theorem test_sneVxNn : after 0x4A10 (regs [(10, 0x10)]) (fun t => t.pc == 0x202) = true ∧
    after 0x4A10 (regs [(10, 0x11)]) (fun t => t.pc == 0x204) = true := by decide
/-- J12. -/
theorem test_seVxVy : after 0x5120 (regs [(1, 9), (2, 8)]) (fun t => t.pc == 0x202) = true ∧
    after 0x5120 (regs [(1, 9), (2, 9)]) (fun t => t.pc == 0x204) = true := by decide
/-- J14. -/
theorem test_sneVxVy : after 0x9120 (regs [(1, 9), (2, 9)]) (fun t => t.pc == 0x202) = true ∧
    after 0x9120 (regs [(1, 9), (2, 8)]) (fun t => t.pc == 0x204) = true := by decide

/-! ## Load and ALU -/

/-- A4. -/
theorem test_ldVxNn : after 0x6FAB State.reset (fun t => t.getV vf == 0xAB) = true := by decide
/-- A1. -/
theorem test_addVxNn : after 0x70FF (regs [(0, 0xFF), (15, 0x77)]) (fun t => t.getV 0 == 0xFE && t.getV vf == 0x77) = true := by decide
/-- A38. -/
theorem test_ldVxVy : after 0x8120 (regs [(2, 0x5A)]) (fun t => t.getV 1 == 0x5A && t.getV 2 == 0x5A) = true := by decide
/-- A34. -/
theorem test_orVxVy : after 0x8121 (regs [(1, 0xF0), (2, 0x0F), (15, 0x77)])
    (fun t => t.getV 1 == 0xFF && t.getV vf == 0x77) = true := by decide
/-- A35. -/
theorem test_andVxVy : after 0x8122 (regs [(1, 0xF3), (2, 0x3C), (15, 0x77)])
    (fun t => t.getV 1 == 0x30 && t.getV vf == 0x77) = true := by decide
/-- A36. -/
theorem test_xorVxVy : after 0x8123 (regs [(1, 0xFF), (2, 0x0F), (15, 0x77)])
    (fun t => t.getV 1 == 0xF0 && t.getV vf == 0x77) = true := by decide
/-- A7, A6. -/
theorem test_addVxVy : after 0x8124 (regs [(1, 0x80), (2, 0x80)]) (fun t => t.getV 1 == 0 && t.getV vf == 1) = true ∧
    after 0x8124 (regs [(1, 0x80), (2, 0x7F)]) (fun t => t.getV 1 == 0xFF && t.getV vf == 0) = true := by decide
/-- A9, A10. -/
theorem test_addVxVy_flag_register : after 0x8F14 (regs [(15, 0x10), (1, 0x20)]) (fun t => t.getV vf == 0x30) = true ∧
    after 0x81F4 (regs [(1, 0xF0), (15, 0x20)]) (fun t => t.getV 1 == 0x10 && t.getV vf == 1) = true := by decide
/-- A13, A14. -/
theorem test_subVxVy : after 0x8125 (regs [(1, 3), (2, 5)]) (fun t => t.getV 1 == 0xFE && t.getV vf == 0) = true ∧
    after 0x8125 (regs [(1, 7), (2, 7)]) (fun t => t.getV 1 == 0 && t.getV vf == 1) = true := by decide
/-- A17, A18. -/
theorem test_subVxVy_flag_register : after 0x8F15 (regs [(15, 3), (1, 5)]) (fun t => t.getV vf == 0xFE) = true ∧
    after 0x81F5 (regs [(1, 5), (15, 7)]) (fun t => t.getV 1 == 0xFE && t.getV vf == 0) = true := by decide
/-- A19, A23. -/
theorem test_shrVx : after 0x8126 (regs [(1, 5), (2, 0xAA)]) (fun t => t.getV 1 == 2 && t.getV 2 == 0xAA && t.getV vf == 1) = true ∧
    after 0x8F26 (regs [(15, 2)]) (fun t => t.getV vf == 1) = true := by decide
/-- A25, A28. -/
theorem test_subnVxVy : after 0x8127 (regs [(1, 5), (2, 3)]) (fun t => t.getV 1 == 0xFE && t.getV vf == 0) = true ∧
    after 0x81F7 (regs [(1, 3), (15, 5)]) (fun t => t.getV 1 == 2 && t.getV vf == 1) = true := by decide
/-- A29, A33. -/
theorem test_shlVx : after 0x812E (regs [(1, 0x81), (2, 0x55)]) (fun t => t.getV 1 == 2 && t.getV 2 == 0x55 && t.getV vf == 1) = true ∧
    after 0x8F0E (regs [(15, 0x41)]) (fun t => t.getV vf == 0x82) = true := by decide
/-- A40, A41: the draw is consumed even under a zero mask. -/
theorem test_rndVxNn : after 0xC30F { State.reset with rndInputs := [0xA7] } (fun t => t.getV 3 == 7) = true ∧
    after 0xC300 { State.reset with rndInputs := [0xA7, 0x11] } (fun t => t.getV 3 == 0 && t.rndInputs == [0x11]) = true := by decide

/-! ## Index register and memory -/

/-- M1. -/
theorem test_ldINnn : after 0xA123 State.reset (fun t => t.index == 0x0123) = true := by decide
/-- M2, M4. -/
theorem test_addIVx : after 0xF01E ({ State.reset with index := 0x0FFF }.setV 0 1) (fun t => t.index == 0x1000) = true ∧
    after 0xF01E ({ State.reset with index := 0xFF80 }.setV 0 0xFF) (fun t => t.index == 0x007F) = true := by decide
/-- M6, M7. -/
theorem test_ldFVx : after 0xF029 (regs [(0, 0x0F)]) (fun t => t.index == 0x09B) = true ∧
    after 0xF029 (regs [(0, 0xFF)]) (fun t => t.index == 0x54B) = true := by decide
/-- M9. -/
theorem test_ldBVx : after 0xF033 ({ State.reset with index := 0xFFD }.setV 0 0xFF)
    (fun t => t.readMem 0xFFD == 2 && t.readMem 0xFFE == 5 && t.readMem 0xFFF == 5) = true := by decide
/-- M10, M11. -/
theorem test_ldBVx_fault : faults 0xF033 { State.reset with index := 0xFFE } (.addressOutOfRange 0x1000) = true ∧
    faults 0xF033 { State.reset with index := 0x1005 } (.addressOutOfRange 0x1005) = true := by decide
/-- M12 and M19. -/
theorem test_ldMemVx : after 0xF055 ({ State.reset with index := 0xFFF }.setV 0 0x5A) (fun t => t.readMem 0xFFF == 0x5A) = true ∧
    after 0xF155 (({ State.reset with index := 0x200 }.setV 0 0x12).setV 1 0x34)
      (fun t => t.readMem 0x200 == 0x12 && t.readMem 0x201 == 0x34 && t.index == 0x200) = true := by decide
/-- M13: the byte in range is not written. -/
theorem test_ldMemVx_fault :
    faults 0xF155 (poke { State.reset with index := 0xFFF } 0xFFF [0xEE]) (.addressOutOfRange 0x1000) = true ∧
    (stateAfterFault (withWord 0xF155 (poke { State.reset with index := 0xFFF } 0xFFF [0xEE]))).readMem 0xFFF = 0xEE := by decide
/-- M18: `V3` is not loaded. -/
theorem test_ldVxMem : after 0xF265 ({ State.reset with index := 0x200 }.setV 3 9)
    (fun t => t.getV 0 == 0xF2 && t.getV 1 == 0x65 && t.getV 2 == 0 && t.getV 3 == 9) = true := by decide
/-- M16. -/
theorem test_ldVxMem_fault : faults 0xF165 { State.reset with index := 0xFFF } (.addressOutOfRange 0x1000) = true := by decide

/-! ## Display -/

/-- B10. -/
theorem test_cls : after 0x00E0 ({ State.reset with fb := [(10, 3)] }.setV vf 7)
    (fun t => t.fb == [] && t.dispDirty && t.getV vf == 7) = true := by decide
/-- The example of R221: both edges wrap, no collision. -/
theorem test_drw_wraps : after 0xD012 (poke ({ State.reset with index := 0x300 }.setV 0 62 |>.setV 1 31) 0x300 [0xC3, 0x81])
    (fun t => t.fb == [(5, 0), (62, 0), (4, 31), (5, 31), (62, 31), (63, 31)] && t.getV vf == 0 && !t.dispDirty) = true := by decide
/-- B8: one cell goes from 1 to 0, its neighbour from 0 to 1. B3: nothing is drawn and `VF` stays. -/
theorem test_drw_collision : after 0xD011
      (poke ({ State.reset with index := 0x300, fb := [(10, 3)] }.setV 0 8 |>.setV 1 3) 0x300 [0x30])
      (fun t => t.fb == [(11, 3)] && t.getV vf == 1) = true ∧
    faults 0xD013 ({ State.reset with index := 0xFFE }.setV vf 0x55) (.addressOutOfRange 0x1000) = true := by decide

/-! ## Keys and timers, the no-op, fetch and load -/

/-- K2, K3. -/
theorem test_skpVx : after 0xE29E ({ State.reset with keyInputs := [0x8000] }.setV 2 0x0F) (fun t => t.pc == 0x204) = true ∧
    after 0xE29E ({ State.reset with keyInputs := [0xFFFF] }.setV 2 0x13) (fun t => t.pc == 0x202) = true := by decide
/-- K4, K5. -/
theorem test_sknpVx : after 0xE2A1 ({ State.reset with keyInputs := [0xFFFF] }.setV 2 0x13) (fun t => t.pc == 0x204) = true ∧
    after 0xE2A1 ({ State.reset with keyInputs := [0x0080] }.setV 2 7) (fun t => t.pc == 0x202) = true := by decide
/-- K8, K9. -/
theorem test_ldVxK : after 0xF20A { State.reset with keyInputs := [0x0480] } (fun t => t.getV 2 == 7 && t.pc == 0x202) = true ∧
    after 0xF20A ({ State.reset with keyInputs := [0], dt := 3 }.setV 2 0x44)
      (fun t => t.getV 2 == 0x44 && t.pc == 0x200 && t.dt == 2 && t.icount == 1) = true := by decide
/-- The example of R244. -/
theorem test_ldVxDt : after 0xF107 { State.reset with dt := 4 } (fun t => t.getV 1 == 4 && t.dt == 3) = true := by decide
/-- K14. -/
theorem test_ldDtVx : after 0xF015 ({ State.reset with dt := 200, st := 7 }.setV 0 9) (fun t => t.dt == 8 && t.st == 6) = true := by decide
/-- K12. -/
theorem test_ldStVx : after 0xF318 (regs [(3, 2)]) (fun t => t.st == 1) = true := by decide
/-- The start of section 2.7 of the vectors. -/
theorem test_nop : after 0x8128 { State.reset with dt := 3, st := 1, stack := [0x300] }
    (fun t => t.pc == 0x202 && t.dt == 2 && t.st == 0 && t.icount == 1 && t.undefOp && t.stack == [0x300]) = true := by decide
/-- F3. -/
theorem test_fetch_fault : faultOf (step { State.reset with pc := 0xFFF }) = some (.addressOutOfRange 0x1000) ∧
    (stateAfterFault { State.reset with pc := 0xFFF }).pc = 0xFFF := by decide
/-- The font of R79: glyph A starts at `0x082`. -/
theorem test_font : (List.range 5).map (fun k => State.reset.readMem (0x082 + k)) = [0xF0, 0x90, 0xF0, 0x90, 0x90] := by decide
/-- The codes of R270, rows 1 to 4, and row 0 for a Step and a load that are `Ok`. -/
theorem test_faultCode : [Fault.addressOutOfRange 0x1000, .stackUnderflow, .stackOverflow, .programTooLarge].map faultCode =
    [1, 2, 3, 4] := by decide
theorem test_resultCode : resultCode (step State.reset) = some 0 ∧ resultCode (loadProgram [0x60, 0x01] State.reset) = some 0 ∧
    resultCode (step { State.reset with pc := 0xFFF }) = some 1 := by decide
/-- R114: digits read back as they print, a small letter as its capital, and `g` is none. -/
theorem test_digits : (∀ d < 16, digitValue (digitChar d) = some d) ∧ digitValue 'c' = some 12 ∧ digitValue 'g' = none := by decide
/-- A program of R114 and R116: a label, a comment, directives, a jump to itself. -/
theorem test_assembleText :
    assembleText [".org 0x300".toList, "loop: JP loop ; the end".toList, ".byte 195, 0x81".toList, "LD [I], vF".toList] =
      some [(0x300, 0x13), (0x301, 0x00), (0x302, 0xC3), (0x303, 0x81), (0x304, 0xFF), (0x305, 0x55)] := by decide
/-- R117: a defined word prints as its mnemonic, any other as `DW`, and what is printed is read back. -/
theorem test_disassembleText : disassembleText 0xD012 = "DRW V0, V1, 0x2".toList ∧ disassembleText 0x8128 = "DW 0x8128".toList ∧
    disassembleText 0xA0FF = "LD I, 0x0FF".toList ∧
    parseLine (disassembleText 0xF265) = some ⟨none, .word .ld [.reg 2, .atIndex]⟩ := by decide
/-- `LD B, V0`, and a shift whose `y` would be lost. -/
theorem test_assembleWord : assembleWord .ld [.digits, .reg 0] = some 0xF033 ∧ disassemble 0x8126 = dwLine 0x8126 := by decide

/-! ## Witnesses: for each statement with hypotheses, a state that meets them -/

/-- The state whose next Step fetches a word executes what the word decodes to. -/
theorem executes_of (w : Word) (s : State) (h : s.fetch = .ok w) : Executes s (decode w) := ⟨w, h, rfl⟩

/-- ReturnPopsTheMostRecentEntry: one entry, and none. -/
theorem witness_return : { State.reset with stack := [0x206] }.sp ≠ 0 ∧
    Executes (withWord 0x00EE State.reset) .ret ∧ (withWord 0x00EE State.reset).sp = 0 :=
  ⟨by decide, executes_of 0x00EE _ rfl, by decide⟩

/-- The reset state with that many stack entries. -/
def deep (n : Nat) : State := { State.reset with stack := List.replicate n 0x202 }

/-- CallPushesTheAdvancedPc and StackFaultsExactlyOnEmptyOrFullStack: the sixteenth call, the seventeenth, and an unbounded stack. -/
theorem witness_call : (∀ d, (deep 15).cfg.stackDepth = some d → (deep 15).sp < d) ∧
    Executes (withWord 0x2200 (deep 16)) (.callNnn 0x200) ∧
    (withWord 0x2200 (deep 16)).cfg.stackDepth = some (withWord 0x2200 (deep 16)).sp ∧
    (∀ d, (State.resetWith { Config.default with stackDepth := none }).cfg.stackDepth = some d → (0 : Nat) < d) := by
  refine ⟨fun d h => ?_, executes_of 0x2200 _ rfl, by decide, fun d h => ?_⟩
  · cases h; decide
  · cases h

/-- StackFaultsExactlyOnEmptyOrFullStack: a stack at its depth meets the premise. -/
theorem witness_stack_within_depth : ∀ d, (deep 16).cfg.stackDepth = some d → (deep 16).sp ≤ d := by
  intro d h; cases h; decide

/-- The flag clauses of the five flag-writing instructions: a destination that is not `VF`. -/
theorem witness_destination_not_vf : (14 : Reg) ≠ vf := by decide

/-- RandomMasksAndConsumesOneByte: a listed byte. -/
theorem witness_random : ∃ b rest, { State.reset with rndInputs := [0xA7] }.rndInputs = b :: rest := ⟨0xA7, [], rfl⟩

/-- DecimalStoreWritesThreeDigits: the highest base that succeeds, and the next. -/
theorem witness_decimal : { State.reset with index := 0xFFD }.index.toNat + 2 ≤ 0xFFF ∧
    Executes (withWord 0xF033 { State.reset with index := 0xFFE }) (.ldBVx 0) ∧
    0xFFF < (withWord 0xF033 { State.reset with index := 0xFFE }).index.toNat + 2 :=
  ⟨by decide, executes_of 0xF033 _ rfl, by decide⟩

/-- BlockStoreWritesTheRegisters and BlockLoadReadsTheRegisters: sixteen registers up to the last byte, and one byte further. -/
theorem witness_block : { State.reset with index := 0xFF0 }.index.toNat + (15 : Reg).val ≤ 0xFFF ∧
    Executes (withWord 0xFF55 { State.reset with index := 0xFF1 }) (.ldMemVx 15) ∧
    Executes (withWord 0xFF65 { State.reset with index := 0xFF1 }) (.ldVxMem 15) ∧
    0xFFF < { State.reset with index := 0xFF1 }.index.toNat + (15 : Reg).val :=
  ⟨by decide, executes_of 0xFF55 _ rfl, executes_of 0xFF65 _ rfl, by decide⟩

/-- BlockLoadRestoresWhatBlockStoreSaved: two registers, saved at the end of memory and loaded from there. -/
theorem witness_round_trip : ∃ t w, exec (.ldMemVx 1) { State.reset with index := 0xFFE } = .next t ∧
    t.index = t.index ∧ (∀ k ≤ (1 : Reg), t.readMem (t.index.toNat + k.val) = t.readMem (t.index.toNat + k.val)) ∧
    exec (.ldVxMem 1) t = .next w :=
  ⟨_, _, rfl, rfl, fun _ _ => rfl, rfl⟩

/-- StoredInstructionIsFetchedNext: `Fx55` at `0x200` over `0x202`, and `Fx33` over the fetched bytes from either digit. -/
theorem witness_stored_instruction :
    (∃ t, Executes (withWord 0xF155 { State.reset with index := 0x202 }) (.ldMemVx 1) ∧
      step (withWord 0xF155 { State.reset with index := 0x202 }) = .next t) ∧
    (withWord 0xF155 { State.reset with index := 0x202 }).pc.toNat + 2 =
      (withWord 0xF155 { State.reset with index := 0x202 }).index.toNat + (0 : Reg).val ∧
    (∃ t, Executes (withWord 0xF033 { State.reset with index := 0x202 }) (.ldBVx 0) ∧
      step (withWord 0xF033 { State.reset with index := 0x202 }) = .next t) ∧
    (∃ t, step (withWord 0xF033 { State.reset with index := 0x201 }) = .next t) ∧
    (withWord 0xF033 { State.reset with index := 0x201 }).pc.toNat + 2 =
      (withWord 0xF033 { State.reset with index := 0x201 }).index.toNat + 1 :=
  ⟨⟨_, executes_of 0xF155 _ rfl, rfl⟩, by decide, ⟨_, executes_of 0xF033 _ rfl, rfl⟩, ⟨_, rfl⟩, by decide⟩

/-- DrawTogglesTheCellsOfTheScan: no row with `I` anywhere, fifteen rows to the last byte, and one byte further. -/
theorem witness_draw : ((0 : Fin 16).val = 0 ∨ 0xFFFF + (0 : Fin 16).val - 1 ≤ 0xFFF) ∧
    { State.reset with index := 0xFF1 }.index.toNat + (15 : Fin 16).val - 1 ≤ 0xFFF ∧
    Executes (withWord 0xD01F { State.reset with index := 0xFF2 }) (.drwVxVyN 0 1 15) ∧ (15 : Fin 16).val ≠ 0 ∧
    0xFFF < (withWord 0xD01F { State.reset with index := 0xFF2 }).index.toNat + (15 : Fin 16).val - 1 :=
  ⟨.inl rfl, by decide, executes_of 0xD01F _ rfl, by decide, by decide⟩

/-- The reset state of the smallest framebuffer on which a full sprite has distinct cells. -/
def smallScreen : State := { State.resetWith { Config.default with fbWidth := 8, fbHeight := 15 } with index := 0x050 }

/-- DrawOnAWideFramebufferIsOneXor and DrawingTwiceRestoresTheFramebuffer: that framebuffer, `VF` a coordinate of the first draw. -/
theorem witness_wide_draw : 8 ≤ smallScreen.cfg.fbWidth ∧ (15 : Fin 16).val ≤ smallScreen.cfg.fbHeight ∧
    ∃ t, exec (.drwVxVyN 15 1 15) smallScreen = .next t ∧ t.getV 0 = smallScreen.getV 15 ∧ t.getV 1 = smallScreen.getV 1 :=
  ⟨by decide, by decide, _, exec_drw_eq_next (.inr (by decide)), by rw [State.getV_setV, if_neg (by decide), State.setFb_getV]; decide,
    by rw [State.getV_setV, if_neg (by decide), State.setFb_getV]⟩

/-- KeySkipsTestTheKeyOfTheRegister and KeyWaitRearmsOrStoresTheLeastKey: listed levels, none down and key 15 down. -/
theorem witness_keys : (∃ k rest, { State.reset with keyInputs := [0x8000] }.keyInputs = k :: rest) ∧
    { State.reset with keyInputs := [0] }.keys = 0 ∧ { State.reset with keyInputs := [0x8000] }.keys ≠ 0 :=
  ⟨⟨0x8000, [], rfl⟩, rfl, by decide⟩

/-- TimerAccessAndTheTickOfTheSameStep: each of the three is fetched. -/
theorem witness_timers : Executes (withWord 0xF107 State.reset) (.ldVxDt 1) ∧ Executes (withWord 0xF015 State.reset) (.ldDtVx 0) ∧
    Executes (withWord 0xF318 State.reset) (.ldStVx 3) :=
  ⟨executes_of 0xF107 _ rfl, executes_of 0xF015 _ rfl, executes_of 0xF318 _ rfl⟩

/-- UndefinedWordsAreNoOps: the first and the last word that select no row. -/
theorem witness_undefined : isDefinedWord 0x0000 = false ∧ isDefinedWord 0xFFFF = false ∧
    State.reset.fetch = .ok 0x0000 ∧ (withWord 0xFFFF State.reset).fetch = .ok 0xFFFF := ⟨by decide, by decide, rfl, rfl⟩

/-- DecodeInvertsEncode: a well-formed no-op, and an instruction with every field at its highest value. -/
theorem witness_wellFormed : (Instr.nop 0xFFFF).wellFormed = true ∧ (Instr.drwVxVyN 15 15 15).wellFormed = true := by decide

/-- StepRunsTheDecodedInstruction, TableWordIsDecodedAndFetched, TimersTickAfterDispatch: the last address that can be fetched from,
a timer running and a timer at zero. -/
theorem witness_step : (withWord 0x6001 { State.reset with pc := 0xFFE }).pc.toNat ≤ 0xFFE ∧
    decodeBytes [(withWord 0x6001 { State.reset with pc := 0xFFE }).readMem 0xFFE,
      (withWord 0x6001 { State.reset with pc := 0xFFE }).readMem 0xFFF] = .ok (.ldVxNn 0 1, []) ∧
    (withWord 0x6001 { State.reset with pc := 0xFFE }).fetch = .ok 0x6001 ∧
    ∃ m, exec (decode 0x6001) (withWord 0x6001 { State.reset with pc := 0xFFE, dt := 1 }).advance = .next m ∧
      0 < m.dt.toNat ∧ m.st.toNat = 0 :=
  ⟨by decide, by decide, rfl, _, rfl, by decide, by decide⟩

/-- FetchReadsTwoBytesOrFaults: the three ranges where they meet. -/
theorem witness_fetch : { State.reset with pc := 0xFFE }.pc.toNat < 0xFFF ∧ { State.reset with pc := 0xFFF }.pc.toNat = 0xFFF ∧
    0xFFF < { State.reset with pc := 0x1000 }.pc.toNat := by decide

/-- RunCountsItsSteps: a run of two Steps. -/
theorem witness_run : ∃ t, core.run 2 State.reset = .next t := ⟨_, rfl⟩

/-- FaultingStepChangesOnlyPc: a fetch that faults and an instruction that faults. -/
theorem witness_fault : step { State.reset with pc := 0x1000 } = .fault (.addressOutOfRange 0x1000) ∧
    step (withWord 0x00EE State.reset) = .fault .stackUnderflow := ⟨rfl, rfl⟩

/-- RegistersAreWrittenOnlyAsListed, SpecialStateIsWrittenOnlyByItsInstructions, StorageIsWrittenOnlyByItsInstructions: an
instruction that completes, and a register it does not write. -/
theorem witness_exec : (∃ t, exec (.addVxVy 1 2) State.reset = .next t) ∧ writesV (.addVxVy 1 2) 3 = false := ⟨⟨_, rfl⟩, rfl⟩

/-- OnlyListedInstructionsRedirectPc: a skip that is taken. -/
theorem witness_redirect : Executes (withWord 0x3100 State.reset) (.seVxNn 1 0) ∧ ∃ t, step (withWord 0x3100 State.reset) = .next t :=
  ⟨executes_of 0x3100 _ rfl, _, rfl⟩

/-- StepIsIndependentOfInputsItDoesNotRead: a key instruction draws no byte, any other reads no key. -/
theorem witness_independent : (withWord 0x6001 State.reset).fetch = .ok 0x6001 ∧ readsKeys (decode 0x6001) = false ∧
    ∀ x nn, decode 0xE29E ≠ .rndVxNn x nn := ⟨rfl, by decide, by intro x nn h; cases h⟩

/-- ResetSatisfiesTheInvariant: the smallest legal parameters. -/
theorem witness_config : { Config.default with fbWidth := 1, fbHeight := 1, stackDepth := some 1 }.valid = true := by decide

/-- A state that meets the invariant: the reset state, at any `pc` in its range and with any image in memory that a load put there. -/
theorem reset_inv_at (pc : Word) (h : pc.toNat ≤ 0x1002) : Inv { State.reset with pc := pc } where
  cfg := (by decide : Config.default.valid = true)
  mem := Memory.wf_nil _
  fb := Framebuffer.wf_nil _
  pc := h
  stack := fun a ha => absurd ha List.not_mem_nil
  depth := fun d _ => Nat.zero_le d

/-- StepKeepsTheInvariant: a Step that completes, a Step that faults at the highest `pc`, and a load, from states that meet it. -/
theorem witness_invariant : (Inv { State.reset with pc := 0xFFE } ∧ ∃ t, step { State.reset with pc := 0xFFE } = .next t) ∧
    (Inv { State.reset with pc := 0x1002 } ∧ step { State.reset with pc := 0x1002 } = .fault (.addressOutOfRange 0x1002)) ∧
    ∃ t, loadProgram [0x12, 0x00] State.reset = .next t :=
  ⟨⟨reset_inv_at _ (by decide), _, rfl⟩, ⟨reset_inv_at _ (by decide), rfl⟩, _, rfl⟩

/-- PartsDetermineTheState: canonical lists that are not empty, and a state that is the same in every part. -/
theorem witness_parts : Memory.wf Config.default [(0x200, 0x12), (0x202, 0x01)] ∧
    Framebuffer.wf Config.default [(63, 0), (0, 31)] ∧ ChangesOnly (fun _ => False) State.reset State.reset :=
  ⟨by decide, by decide, ChangesOnly.refl _ _⟩

/-- LoadProgramCopiesTheImage: the longest image and the next length. -/
theorem witness_load : (List.replicate 3584 (0 : Byte)).length ≤ 3584 ∧ 3584 < (List.replicate 3585 (0 : Byte)).length := by
  simp only [List.length_replicate]; decide

/-- ReturnGoesPastItsCall: S9, the call at `0x200` of a subroutine that returns at once. -/
theorem witness_call_return : ∃ t w, Executes (poke State.reset 0x200 [0x22, 0x04, 0x12, 0x02, 0x00, 0xEE]) (.callNnn 0x204) ∧
    step (poke State.reset 0x200 [0x22, 0x04, 0x12, 0x02, 0x00, 0xEE]) = .next t ∧ Executes t .ret ∧ step t = .next w :=
  ⟨_, _, executes_of 0x2204 _ rfl, rfl, executes_of 0x00EE _ rfl, rfl⟩

/-- DelayTimerCountsSteps: `F015` and then a no-op, with no further `Fx15`, and `F107` next. -/
theorem witness_delay : ∃ t, Executes (poke (regs [(0, 5)]) 0x200 [0xF0, 0x15, 0x00, 0x00, 0xF1, 0x07]) (.ldDtVx 0) ∧
    core.run (1 + 1) (poke (regs [(0, 5)]) 0x200 [0xF0, 0x15, 0x00, 0x00, 0xF1, 0x07]) = .next t ∧
    (∀ k u, 1 ≤ k → k ≤ 1 → core.run k (poke (regs [(0, 5)]) 0x200 [0xF0, 0x15, 0x00, 0x00, 0xF1, 0x07]) = .next u →
      ∀ y, ¬ Executes u (.ldDtVx y)) ∧ Executes t (.ldVxDt 1) := by
  refine ⟨_, executes_of 0xF015 _ rfl, rfl, fun k u h1 h2 hr y he => ?_, executes_of 0xF107 _ rfl⟩
  obtain rfl : k = 1 := by omega
  cases hr
  have := executes_unique he (executes_of 0x0000 _ rfl)
  cases this

/-- KeyWaitLastsUntilAKeyIsDown: two vectors with no key, then one with key 15. -/
theorem witness_wait : Executes (withWord 0xF20A { State.reset with keyInputs := [0, 0, 0x8000] }) (.ldVxK 2) ∧
    (withWord 0xF20A { State.reset with keyInputs := [0, 0, 0x8000] }).keyInputs = List.replicate 2 0 ++ 0x8000 :: [] ∧
    (0x8000 : Word) ≠ 0 := ⟨executes_of 0xF20A _ rfl, rfl, by decide⟩

/-- FinishedProgramStaysFinished: a jump to itself. -/
theorem witness_finished : finished (withWord 0x1200 State.reset) = true := by decide

end Sys2Proof.Tests
end

section
/-! PROOF. The state after reset satisfies the invariant of the machine (R8, R62). -/

namespace Sys2Proof.Machine

/-- The default parameters of R7 satisfy the constraints of R8. -/
theorem config_default_valid : Config.default.valid = true := by decide

/-- Reset lists no memory cell, no lit pixel and no stack entry, so R8 is the one clause of the invariant that it does not establish
by itself. -/
theorem inv_resetWith {c : Config} (hc : c.valid = true) : Inv (State.resetWith c) where
  cfg := hc
  mem := Memory.wf_nil c
  fb := Framebuffer.wf_nil c
  pc := (by decide : (0x200 : Word).toNat ≤ 0x1002)
  stack := fun _ ha => absurd ha List.not_mem_nil
  depth := fun d _ => Nat.zero_le d

/-- Settles O51: legal parameters are all that the invariant asks of reset, and the default ones are legal. -/
theorem resetSatisfiesTheInvariant : Obligations.ResetSatisfiesTheInvariant :=
  ⟨inv_resetWith config_default_valid, fun _ hc => inv_resetWith hc⟩

end Sys2Proof.Machine
end

section
/-! SUPPORT. What a completed instruction does to the state, said once: fifteen kinds of effect, and the one an instruction has. -/

namespace Sys2Proof.Machine

/-- The six skips (R155 to R158, R240, R241). -/
inductive Skips : Instr → Prop
  | seVxNn (x : Reg) (nn : Byte) : Skips (.seVxNn x nn)
  | sneVxNn (x : Reg) (nn : Byte) : Skips (.sneVxNn x nn)
  | seVxVy (x y : Reg) : Skips (.seVxVy x y)
  | sneVxVy (x y : Reg) : Skips (.sneVxVy x y)
  | skpVx (x : Reg) : Skips (.skpVx x)
  | sknpVx (x : Reg) : Skips (.sknpVx x)

/-- What an instruction that completes does to the advanced state. The constructors are the kinds of state it can change; the ones
that share a kind are told apart only as far as their frames need it. -/
inductive Effect (s : State) : Instr → State → Prop
  /-- General registers of the instruction's list of R34, and nothing else. -/
  | registers (i : Instr) (v : Vector Byte 16) (hv : ∀ k : Reg, writesV i k = false → v[k] = s.getV k) :
      Effect s i { s with v := v }
  | random (x : Reg) (nn b : Byte) : Effect s (.rndVxNn x nn) (s.drawRnd.setV x b)
  | jump (nnn : Address) : Effect s (.jpNnn nnn) (s.setPc (nnn.setWidth 16))
  | offsetJump (nnn : Address) : Effect s (.jpV0Nnn nnn) (s.setPc (offsetTarget (s.getV 0) nnn))
  | skip (i : Instr) (hi : Skips i) (cond : Bool) : Effect s i (s.skipIf cond)
  | wait (x : Reg) : Effect s (.ldVxK x) s.rearm
  | ret (w : Word) (rest : List Word) (hs : s.stack = w :: rest) : Effect s .ret ({ s with stack := rest }.setPc w)
  | call (nnn : Address) (hs : s.stackFull = false) :
      Effect s (.callNnn nnn) ({ s with stack := s.pc :: s.stack }.setPc (nnn.setWidth 16))
  | clear : Effect s .cls s.clearFb.markDispDirty
  | draw (x y : Reg) (n : Fin 16) (rows : List Byte) (flag : Byte) : Effect s (.drwVxVyN x y n)
      ((s.setFb (s.fb.draw (spriteTargets s.cfg (s.getV x).toNat (s.getV y).toNat rows)).1).setV vf flag)
  | index (i : Instr) (hi : (∃ nnn, i = .ldINnn nnn) ∨ ∃ x, i = .addIVx x ∨ i = .ldFVx x) (w : Word) :
      Effect s i (s.setIndex w)
  | delay (x : Reg) (b : Byte) : Effect s (.ldDtVx x) (s.setDt b)
  | sound (x : Reg) (b : Byte) : Effect s (.ldStVx x) (s.setSt b)
  | store (i : Instr) (hi : ∃ x, i = .ldBVx x ∨ i = .ldMemVx x) (bytes : List Byte)
      (hb : s.base + bytes.length ≤ 4096) : Effect s i { s with mem := s.mem.writeList s.cfg s.base bytes }
  | nop (w : Word) : Effect s (.nop w) s.markUndefOp

/-- One register written, in the list of the instruction. -/
theorem effect_setV {s : State} {i : Instr} {x : Reg} (hx : ∀ k, writesV i k = false → k ≠ x) (b : Byte) :
    Effect s i (s.setV x b) :=
  .registers i _ (fun k hk => (s.getV_setV x k b).trans (if_neg (hx k hk)))

/-- A flag and a result written, both in the list of the instruction. -/
theorem effect_setFlagThenV {s : State} {i : Instr} {x : Reg} (hx : ∀ k, writesV i k = false → k ≠ x ∧ k ≠ vf) (b : Byte)
    (c : Bool) : Effect s i (s.setFlagThenV x b c) :=
  .registers i _ (fun k hk => (s.getV_setFlagThenV x k b c).trans (by simp [hx k hk]))

/-- A block of registers written, in the list of the instruction. -/
theorem effect_setVBlock {s : State} {x : Reg} (f : Reg → Byte) : Effect s (.ldVxMem x) (s.setVBlock x f) :=
  .registers _ _ (fun k hk => (s.getV_setVBlock x k f).trans (if_neg (by simpa [writesV] using hk)))

/-- A store at `I` that completes, of an instruction that stores at least one byte. -/
theorem effect_storeAtIndex {s t : State} {i : Instr} (hi : ∃ x, i = .ldBVx x ∨ i = .ldMemVx x) {bytes : List Byte}
    (h0 : bytes.length ≠ 0) (h : s.storeAtIndex bytes = .next t) : Effect s i t := by
  rcases storeAtIndex_cases s bytes with ⟨hr, e⟩ | ⟨f, -, e⟩
  · have hle := rangeFault_eq_none.mp hr
    cases e.symm.trans h
    exact .store i hi bytes (by omega)
  · cases e.symm.trans h

/-- Every instruction that completes has one of the effects: the one inversion that the frames and the invariant cite. -/
theorem effect_of_exec {i : Instr} {s t : State} (h : exec i s = .next t) : Effect s i t := by
  cases i
  case cls => cases h; exact .clear
  case ret =>
    rcases pop_cases s with ⟨w, rest, hs, e⟩ | ⟨-, e⟩
    · simp only [exec, execRet, e] at h
      cases h; exact .ret w rest hs
    · simp [exec, execRet, e, raise] at h
  case jpNnn nnn => cases h; exact .jump nnn
  case callNnn nnn =>
    rcases push_cases s s.pc with ⟨hs, e⟩ | ⟨-, e⟩
    · simp only [exec, execCallNnn, e] at h
      cases h; exact .call nnn hs
    · simp [exec, execCallNnn, e, raise] at h
  case seVxNn x nn => cases h; exact .skip _ (.seVxNn x nn) _
  case sneVxNn x nn => cases h; exact .skip _ (.sneVxNn x nn) _
  case seVxVy x y => cases h; exact .skip _ (.seVxVy x y) _
  case sneVxVy x y => cases h; exact .skip _ (.sneVxVy x y) _
  case skpVx x => cases h; exact .skip _ (.skpVx x) _
  case sknpVx x => cases h; exact .skip _ (.sknpVx x) _
  case addVxVy | subVxVy | shrVx | subnVxVy | shlVx =>
    cases h; exact effect_setFlagThenV (by simp [writesV]) _ _
  case ldVxNn | addVxNn | ldVxVy | orVxVy | andVxVy | xorVxVy | ldVxDt =>
    cases h; exact effect_setV (by simp [writesV]) _
  case ldINnn nnn => cases h; exact .index _ (.inl ⟨nnn, rfl⟩) _
  case addIVx x => cases h; exact .index _ (.inr ⟨x, .inl rfl⟩) _
  case ldFVx x => cases h; exact .index _ (.inr ⟨x, .inr rfl⟩) _
  case jpV0Nnn nnn => cases h; exact .offsetJump nnn
  case rndVxNn x nn => cases h; exact .random x nn _
  case drwVxVyN x y n =>
    rcases loadBytes_cases s s.base n.val with ⟨-, e⟩ | ⟨f, -, e⟩
    · simp only [exec, execDrwVxVyN, e] at h
      cases h; exact .draw x y n _ _
    · simp [exec, execDrwVxVyN, e, raise] at h
  case ldVxK x =>
    cases hk : lowestKey s.keys with
    | none => simp only [exec, execLdVxK, hk] at h; cases h; exact .wait x
    | some k => simp only [exec, execLdVxK, hk] at h; cases h; exact effect_setV (by simp [writesV]) k
  case ldDtVx x => cases h; exact .delay x _
  case ldStVx x => cases h; exact .sound x _
  case ldBVx x => exact effect_storeAtIndex ⟨x, .inl rfl⟩ (by simp) h
  case ldMemVx x => exact effect_storeAtIndex ⟨x, .inr rfl⟩ (by simp) h
  case ldVxMem x =>
    rcases loadBytes_cases s s.base (x.val + 1) with ⟨-, e⟩ | ⟨f, -, e⟩
    · simp only [exec, execLdVxMem, e] at h
      cases h; exact effect_setVBlock _
    · simp [exec, execLdVxMem, e, raise] at h
  case nop w => cases h; exact .nop w

/-- A Step that completes has the effect of its instruction on the advanced state, and then completes. -/
theorem effect_of_step {i : Instr} {s t : State} (hi : Executes s i) (h : step s = .next t) :
    ∃ m, Effect s.advance i m ∧ t = m.complete := by
  obtain ⟨w, m, hf, he, rfl⟩ := step_eq_next.mp h
  obtain rfl := executes_unique hi ⟨w, hf, rfl⟩
  exact ⟨m, effect_of_exec he, rfl⟩

/-- The target of `Bnnn` as a number (R154). -/
theorem offsetTarget_toNat (v0 : Byte) (nnn : Address) : (offsetTarget v0 nnn).toNat = (v0.toNat + nnn.toNat) % 4096 := by
  simp only [offsetTarget, BitVec.toNat_ofNat]; omega

end Sys2Proof.Machine
end

section
/-! PROOF. The invariant of the machine: every Step keeps it, and so does what a fault leaves and a program load (R39, R50, R150). -/

namespace Sys2Proof.Machine

/-- Where no instruction can write the storage, the invariant is a question of `pc` alone (R39). -/
theorem Inv.of_same_storage {s t : State} (h : Inv s) (hcfg : t.cfg = s.cfg) (hmem : t.mem = s.mem) (hfb : t.fb = s.fb)
    (hstack : t.stack = s.stack) (hpc : t.pc.toNat ≤ 0x1002) : Inv t where
  cfg := hcfg ▸ h.cfg
  mem := by rw [hcfg, hmem]; exact h.mem
  fb := by rw [hcfg, hfb]; exact h.fb
  pc := hpc
  stack := hstack ▸ h.stack
  depth := by rw [hcfg, State.sp, hstack]; exact h.depth

/-- A jump, a call, a skip or the re-arm: only `pc` is replaced. -/
theorem Inv.setPc {s : State} (h : Inv s) {w : Word} (hw : w.toNat ≤ 0x1002) : Inv (s.setPc w) :=
  h.of_same_storage rfl rfl rfl rfl hw

/-- Registers written, `VF` among them. -/
theorem Inv.setV {s : State} (h : Inv s) (x : Reg) (b : Byte) : Inv (s.setV x b) :=
  h.of_same_storage rfl rfl rfl rfl h.pc

/-- Tick, count and key sample touch nothing the invariant speaks of. -/
theorem Inv.complete {s : State} (h : Inv s) : Inv s.complete := h.of_same_storage rfl rfl rfl rfl h.pc

/-- A fetch that succeeds leaves the advanced `pc` between 2 and `0x1000` (R39). -/
theorem advance_pc_of_fetch {s : State} {w : Word} (h : s.fetch = .ok w) :
    2 ≤ s.advance.pc.toNat ∧ s.advance.pc.toNat ≤ 0x1000 := by
  have hpc := pc_le_of_executes ⟨w, h, rfl⟩
  simp only [State.advance_pc, BitVec.toNat_add, BitVec.toNat_ofNat, BitVec.ofNat_eq_ofNat]; omega

/-- The advance of a Step whose fetch succeeds. -/
theorem Inv.advance {s : State} (h : Inv s) {w : Word} (hf : s.fetch = .ok w) : Inv s.advance :=
  h.of_same_storage rfl rfl rfl rfl (by have := advance_pc_of_fetch hf; omega)

/-- A return takes `pc` and the new stack from the entries, which are in range (R150). -/
theorem Inv.ret {s : State} (h : Inv s) {w : Word} {rest : List Word} (hs : s.stack = w :: rest) :
    Inv ({ s with stack := rest }.setPc w) where
  cfg := h.cfg
  mem := h.mem
  fb := h.fb
  pc := by have := h.stack w (by simp [hs]); simp only [State.setPc_pc]; omega
  stack := fun a ha => h.stack a (by rw [hs]; exact List.mem_cons_of_mem w ha)
  depth := fun d hd => by
    have hlen : s.sp = rest.length + 1 := by simp [State.sp, hs]
    have := h.depth d hd
    simp only [State.sp, State.setPc_stack]; omega

/-- A call pushes the advanced `pc` where the stack is not full (R51, R152). -/
theorem Inv.call {s : State} (h : Inv s) (hpc : s.pc.toNat ≤ 0x1000) (hfull : s.stackFull = false) {w : Word}
    (hw : w.toNat ≤ 0x1002) : Inv ({ s with stack := s.pc :: s.stack }.setPc w) where
  cfg := h.cfg
  mem := h.mem
  fb := h.fb
  pc := hw
  stack := fun a ha => by
    rcases List.mem_cons.mp ha with rfl | ha
    · exact hpc
    · exact h.stack a ha
  depth := fun d hd => by
    have hlt : ¬ d ≤ s.sp := fun hle => by simp [(stackFull_iff s).mpr ⟨d, hd, hle⟩] at hfull
    simp only [State.sp, State.setPc_stack, List.length_cons] at hlt ⊢; omega

/-- A framebuffer in canonical form replaces another. -/
theorem Inv.setFb {s : State} (h : Inv s) {fb : Framebuffer} (hfb : fb.wf s.cfg) : Inv (s.setFb fb) where
  cfg := h.cfg
  mem := h.mem
  fb := hfb
  pc := h.pc
  stack := h.stack
  depth := h.depth

/-- Bytes written inside memory. -/
theorem Inv.writeList {s : State} (h : Inv s) {base : Nat} {bytes : List Byte} (hb : base + bytes.length ≤ 4096) :
    Inv { s with mem := s.mem.writeList s.cfg base bytes } where
  cfg := h.cfg
  mem := Memory.wf_writeList h.mem hb
  fb := h.fb
  pc := h.pc
  stack := h.stack
  depth := h.depth

/-- An address of 12 bits is in the range of `pc`. -/
theorem setWidth_address_le (nnn : Address) : (nnn.setWidth 16 : Word).toNat ≤ 0x1002 := by
  rw [BitVec.toNat_setWidth_of_le (by decide)]; omega

/-- A sum masked to 12 bits is in the range of `pc` (R154). -/
theorem offsetTarget_le (v0 : Byte) (nnn : Address) : (offsetTarget v0 nnn).toNat ≤ 0x1002 := by
  rw [offsetTarget_toNat]; omega

/-- Every effect keeps the invariant, from an advanced `pc`: the skip needs it at most `0x1000`, the re-arm at least 2. -/
theorem Inv.of_effect {i : Instr} {s t : State} (h : Inv s) (hlo : 2 ≤ s.pc.toNat) (hhi : s.pc.toNat ≤ 0x1000)
    (he : Effect s i t) : Inv t := by
  cases he with
  | registers | index | delay | sound | nop => exact h.of_same_storage rfl rfl rfl rfl h.pc
  | random x nn b => exact (h.of_same_storage rfl rfl rfl rfl h.pc : Inv s.drawRnd).setV x b
  | jump nnn => exact h.setPc (setWidth_address_le nnn)
  | offsetJump nnn => exact h.setPc (offsetTarget_le _ nnn)
  | skip i hi cond =>
    cases cond with
    | false => exact h
    | true => exact h.setPc (by simp only [BitVec.toNat_add, BitVec.toNat_ofNat, BitVec.ofNat_eq_ofNat]; omega)
  | wait x => exact h.setPc (by simp only [BitVec.toNat_sub, BitVec.toNat_ofNat, BitVec.ofNat_eq_ofNat]; omega)
  | ret w rest hs => exact h.ret hs
  | call nnn hs => exact h.call hhi hs (setWidth_address_le nnn)
  | clear => exact (h.setFb (Framebuffer.wf_nil _)).of_same_storage rfl rfl rfl rfl h.pc
  | draw x y n rows flag =>
    exact (h.setFb (Framebuffer.wf_draw h.fb (spriteTargets_in_grid h.cfg _ _ _))).setV vf flag
  | store i hi bytes hb => exact h.writeList hb

/-- A Step that completes keeps the invariant. -/
theorem Inv.of_step {s t : State} (h : Inv s) (hst : step s = .next t) : Inv t := by
  obtain ⟨w, m, hf, he, rfl⟩ := step_eq_next.mp hst
  obtain ⟨hlo, hhi⟩ := advance_pc_of_fetch hf
  exact ((h.advance hf).of_effect hlo hhi (effect_of_exec he)).complete

/-- What a faulting Step leaves has the invariant: the state itself or its advance. -/
theorem Inv.stateAfterFault {s : State} (h : Inv s) : Inv (stateAfterFault s) := by
  cases hf : s.fetch with
  | error f => rw [stateAfterFault_of_fetch_error hf]; exact h.of_same_storage rfl rfl rfl rfl h.pc
  | ok w => rw [stateAfterFault_of_fetch_ok hf]; exact (h.advance hf).of_same_storage rfl rfl rfl rfl (h.advance hf).pc

/-- A load that succeeds writes an image of at most 3584 bytes from `0x200` up (R90). -/
theorem loadProgram_eq_next {bytes : List Byte} {s t : State} : loadProgram bytes s = .next t ↔
    bytes.length ≤ 3584 ∧ t = { s with mem := s.mem.writeList s.cfg 0x200 bytes } := by
  unfold loadProgram
  split_ifs with hlen
  · simp [raise, hlen]
  · simp [Nat.le_of_not_lt hlen, eq_comm]

/-- A load that succeeds keeps the invariant: its last byte is at most at `0xFFF`. -/
theorem Inv.loadProgram {s t : State} (h : Inv s) {bytes : List Byte} (hl : loadProgram bytes s = .next t) : Inv t := by
  obtain ⟨hlen, rfl⟩ := loadProgram_eq_next.mp hl
  exact h.writeList (by omega)

/-- Settles O52: the effects of the fifteen kinds, the two states a fault can leave, and the load, each by its own lemma. -/
theorem stepKeepsTheInvariant : Obligations.StepKeepsTheInvariant :=
  ⟨fun _ _ h hst => h.of_step hst, fun _ _ h _ => h.stateAfterFault, fun _ _ _ h hl => h.loadProgram hl⟩

end Sys2Proof.Machine
end

section
/-! PROOF. What instructions may change (R34, R37, R45 to R59, R83), each frame read off the effect of the instruction. -/

namespace Sys2Proof.Machine

/-- A register outside the list of R34 reads the same after every effect. -/
theorem getV_of_effect {i : Instr} {s t : State} {k : Reg} (he : Effect s i t) (hk : writesV i k = false) :
    t.getV k = s.getV k := by
  cases he with
  | registers i v hv => exact hv k hk
  | random x nn b =>
    have hkx : k ≠ x := by simpa [writesV] using hk
    exact (State.getV_setV _ x k b).trans (if_neg hkx)
  | draw x y n rows flag =>
    have hkf : k ≠ vf := by simpa [writesV] using hk
    exact (State.getV_setV _ vf k flag).trans (if_neg hkf)
  | skip i hi cond => exact s.skipIf_getV cond k
  | jump | offsetJump | wait | ret | call | clear | index | delay | sound | store | nop => rfl

/-- Settles O43: general registers change in three kinds of effect, in each within the list of R34. -/
theorem registersAreWrittenOnlyAsListed : Obligations.RegistersAreWrittenOnlyAsListed :=
  fun _ _ _ _ h hk => getV_of_effect (effect_of_exec h) hk

/-- Settles O44: each special register has an effect of its own, and every other effect leaves it. -/
theorem specialStateIsWrittenOnlyByItsInstructions : Obligations.SpecialStateIsWrittenOnlyByItsInstructions := by
  intro i s t h
  cases effect_of_exec h with
  | index i hi w => simp [hi]
  | registers | random | jump | offsetJump | skip | wait | ret | call | clear | draw | delay | sound | store | nop => simp

/-- Settles O45: stack, framebuffer and memory have effects of their own, and every other effect leaves them. -/
theorem storageIsWrittenOnlyByItsInstructions : Obligations.StorageIsWrittenOnlyByItsInstructions := by
  intro i s t h
  cases effect_of_exec h with
  | store i hi bytes hb => exact ⟨.inl rfl, .inl rfl, .inr hi⟩
  | registers | random | jump | offsetJump | skip | wait | ret | call | clear | draw | index | delay | sound | nop => simp

/-- The most recent entry is the one below the stack pointer (R50). -/
theorem stackEntry_of_stack_eq_cons {s : State} {w : Word} {rest : List Word} (hs : s.stack = w :: rest) :
    s.stackEntry (s.sp - 1) = some w := by simp [State.stackEntry, State.sp, hs]

/-- Settles O46: six kinds of effect write `pc`, and the others leave the advanced one. -/
theorem onlyListedInstructionsRedirectPc : Obligations.OnlyListedInstructionsRedirectPc := by
  intro i s t hi h
  obtain ⟨m, he, rfl⟩ := effect_of_step hi h
  rw [State.complete_pc]
  cases he with
  | jump nnn => exact .inr (.inl ⟨nnn, .inl rfl, BitVec.toNat_setWidth_of_le (by decide)⟩)
  | call nnn hs => exact .inr (.inl ⟨nnn, .inr rfl, BitVec.toNat_setWidth_of_le (by decide)⟩)
  | ret w rest hs => exact .inr (.inr (.inl ⟨rfl, (stackEntry_of_stack_eq_cons (s := s) hs).symm⟩))
  | offsetJump nnn => exact .inr (.inr (.inr (.inl ⟨nnn, rfl, offsetTarget_toNat _ nnn⟩)))
  | skip i hi cond =>
    cases cond with
    | false => exact .inl rfl
    | true =>
      have hpc : (s.advance.skipIf true).pc = s.pc + 4 := BitVec.add_assoc s.pc 2 2
      refine .inr (.inr (.inr (.inr (.inl ⟨hpc, ?_⟩))))
      cases hi <;> simp
  | wait x => exact .inr (.inr (.inr (.inr (.inr ⟨by simp, x, rfl⟩))))
  | registers | random | clear | draw | index | delay | sound | store | nop => exact .inl rfl

end Sys2Proof.Machine
end

section
/-! PROOF. No Step depends on the diagnostics: the counter (R53) and the strobes of the Step before (R59). -/

namespace Sys2Proof.Machine

/-- The state with another counter. -/
def State.withCount (s : State) (c : BitVec 64) : State := { s with icount := c }

@[simp] theorem withCount_pc (s : State) (c : BitVec 64) : (s.withCount c).pc = s.pc := rfl
@[simp] theorem withCount_stack (s : State) (c : BitVec 64) : (s.withCount c).stack = s.stack := rfl
@[simp] theorem withCount_stackFull (s : State) (c : BitVec 64) : (s.withCount c).stackFull = s.stackFull := rfl
@[simp] theorem withCount_base (s : State) (c : BitVec 64) : (s.withCount c).base = s.base := rfl
@[simp] theorem withCount_keys (s : State) (c : BitVec 64) : (s.withCount c).keys = s.keys := rfl
@[simp] theorem withCount_loadBytes (s : State) (c : BitVec 64) (base len : Nat) :
    (s.withCount c).loadBytes base len = s.loadBytes base len := rfl

/-- A skip does not read the counter. -/
theorem skipIf_withCount (s : State) (c : BitVec 64) (cond : Bool) :
    (s.withCount c).skipIf cond = (s.skipIf cond).withCount c := by
  cases cond <;> rfl

/-- `Pop` does not read the counter. -/
theorem pop_withCount (s : State) (c : BitVec 64) :
    (s.withCount c).pop = s.pop.map (fun p => (p.1, p.2.withCount c)) := by
  simp only [State.pop, withCount_stack]
  cases s.stack <;> rfl

/-- `Push` does not read the counter. -/
theorem push_withCount (s : State) (c : BitVec 64) (w : Word) :
    (s.withCount c).push w = (s.push w).map (·.withCount c) := by
  rw [State.push, State.push, withCount_stackFull]
  cases s.stackFull <;> rfl

/-- A store at `I` does not read the counter. -/
theorem storeAtIndex_withCount (s : State) (c : BitVec 64) (bytes : List Byte) :
    (s.withCount c).storeAtIndex bytes = onNext (·.withCount c) (s.storeAtIndex bytes) := by
  simp only [State.storeAtIndex, State.storeBytes, withCount_base]
  cases rangeFault s.base bytes.length <;> rfl

/-- No instruction reads the counter: with another one it answers the same, and leaves the counter it was given. -/
theorem exec_withCount (i : Instr) (s : State) (c : BitVec 64) :
    exec i (s.withCount c) = onNext (·.withCount c) (exec i s) := by
  cases i
  case ret => simp only [exec, execRet, pop_withCount]; cases s.pop <;> rfl
  case callNnn nnn => simp only [exec, execCallNnn, withCount_pc, push_withCount]; cases s.push s.pc <;> rfl
  case seVxNn | sneVxNn | seVxVy | sneVxVy | skpVx | sknpVx => exact congrArg Host.Outcome.next (skipIf_withCount s c _)
  case drwVxVyN x y n =>
    simp only [exec, execDrwVxVyN, withCount_base, withCount_loadBytes]
    cases s.loadBytes s.base n.val <;> rfl
  case ldVxK x => simp only [exec, execLdVxK, withCount_keys]; cases lowestKey s.keys <;> rfl
  case ldBVx x => exact storeAtIndex_withCount s c (decimalDigits (s.getV x))
  case ldMemVx x => exact storeAtIndex_withCount s c (s.vBlock x)
  case ldVxMem x =>
    simp only [exec, execLdVxMem, withCount_base, withCount_loadBytes]
    cases s.loadBytes s.base (x.val + 1) <;> rfl
  -- every other meaning is one update of fields, none of them the counter
  all_goals rfl

/-- Settles O48: the fetch reads neither counter nor strobes, the advance lowers the strobes, and no instruction reads the counter. -/
theorem diagnosticsInfluenceNothing : Obligations.DiagnosticsInfluenceNothing := by
  intro s c d u
  have hfetch : State.fetch { s with icount := c, dispDirty := d, undefOp := u } = s.fetch := rfl
  have hadvance : State.advance { s with icount := c, dispDirty := d, undefOp := u } = s.advance.withCount c := rfl
  unfold step
  rw [hfetch, hadvance]
  cases s.fetch with
  | error f => rfl
  | ok w =>
    simp only [exec_withCount]
    cases exec (decode w) s.advance <;> rfl

end Sys2Proof.Machine
end

section
/-! PROOF. The parts of the state are all of it (R30), the framebuffer operations (R55) and the values after reset (R35, R40, R91). -/

namespace Sys2Proof.Machine

/-- A canonical framebuffer is determined by what `GetPixel` reads of it: a cell outside the grid is in no canonical list. -/
theorem Framebuffer.eq_of_pixels_eq {c : Config} {fb fb' : Framebuffer} (h : fb.wf c) (h' : fb'.wf c)
    (hp : ∀ px py, fb.lit (wrapPixel c px py) = fb'.lit (wrapPixel c px py)) : fb = fb' := by
  refine eq_of_lit_eq h.1 h'.1 fun p => ?_
  by_cases hin : p.1 < c.fbWidth ∧ p.2 < c.fbHeight
  · have hw : wrapPixel c p.1 p.2 = p := Prod.ext (Nat.mod_eq_of_lt hin.1) (Nat.mod_eq_of_lt hin.2)
    simpa [hw] using hp p.1 p.2
  · have hout : ∀ l : Framebuffer, l.wf c → l.lit p = false := fun l hl =>
      decide_eq_false fun hm => hin (hl.2 p hm)
    rw [hout fb h, hout fb' h']

/-- Settles O53: the lists are determined by their reads, and every other field is a part or a vector of parts. -/
theorem partsDetermineTheState : Obligations.PartsDetermineTheState := by
  intro s t hsm htm hsf htf h
  have same (p : Part) : p.Same s t := h p id
  have hcfg : t.cfg = s.cfg := same .cfg
  have hv : t.v = s.v := Vector.ext fun k hk => same (.v ⟨k, hk⟩)
  have hfb : t.fb = s.fb := Framebuffer.eq_of_pixels_eq (hcfg ▸ htf) hsf fun px py => by
    have := same (.pixel px py)
    rwa [Part.Same, State.getPixel, State.getPixel, hcfg] at this
  have hmem : t.mem = s.mem := Memory.eq_of_read_eq (hcfg ▸ htm) hsm fun a => by
    have := same (.cell a)
    rwa [Part.Same, State.readMem, State.readMem, hcfg] at this
  obtain ⟨hkeys, hsamples⟩ := same .keyInput
  obtain ⟨hbytes, hdraws⟩ := same .rndInput
  cases s
  cases t
  simp only [State.mk.injEq]
  exact ⟨hcfg, hv, same .pc, same .index, same .dt, same .st, same .stack, same .icount, hfb, hmem, hkeys, hsamples, hbytes,
    hdraws, same .dispDirty, same .undefOp⟩

/-- Coordinates name the same cell exactly when each is the same modulo the size (R55). -/
theorem wrapPixel_eq_iff (c : Config) (px py qx qy : Nat) :
    wrapPixel c qx qy = wrapPixel c px py ↔ qx % c.fbWidth = px % c.fbWidth ∧ qy % c.fbHeight = py % c.fbHeight := by
  simp [wrapPixel]

/-- Settles O24: reducing twice is reducing once, and a toggle inverts the one cell it names. -/
theorem framebufferOperationsWrapAndToggle : Obligations.FramebufferOperationsWrapAndToggle := by
  intro s px py qx qy
  refine ⟨s.getPixel_clearFb px py, by simp [State.getPixel, wrapPixel], ?_⟩
  have htoggle : (s.togglePixel px py).getPixel qx qy =
      (s.getPixel qx qy ^^ decide (wrapPixel s.cfg qx qy = wrapPixel s.cfg px py)) := Framebuffer.lit_toggle _ _ _
  simp only [htoggle, wrapPixel_eq_iff]
  split_ifs with hcell <;> simp [hcell]

/-- A cell of the font table that nothing has written holds its glyph byte (R79, R91). -/
theorem unlisted_font (c : Config) (k : Fin 80) : Memory.unlisted c (0x050 + k.val) = c.font[k] := by
  have hk : 0x050 + k.val < 0x0A0 := by omega
  simp [Memory.unlisted, hk]

/-- Settles O49: memory lists nothing after reset, so the font table reads as the parameter. -/
theorem resetHoldsTheStatedValues : Obligations.ResetHoldsTheStatedValues :=
  ⟨rfl, fun c => ⟨fun k => by simp [State.getV, State.resetWith], rfl, unlisted_font c, rfl⟩⟩

end Sys2Proof.Machine
end

section
/-! PROOF. Stored bytes are what later accesses read: the next fetch (R74, R87), the probe word (R101) and the program image (R90). -/

namespace Sys2Proof.Machine

/-- What follows the instruction changes neither `pc` nor memory. -/
@[simp] theorem complete_fetch (s : State) : s.complete.fetch = s.fetch := rfl

/-- The fetch from two neighbours among bytes stored inside memory. -/
theorem fetch_writeList (s : State) {base j : Nat} {bytes : List Byte} (hb : base + bytes.length ≤ 4096)
    (hj : j + 1 < bytes.length) (hpc : s.pc.toNat = base + j) :
    State.fetch { s with mem := s.mem.writeList s.cfg base bytes } =
      .ok (wordOfBytes (bytes.getD j 0) (bytes.getD (j + 1) 0)) := by
  have hstored (k : Nat) (hk : k < bytes.length) :
      State.readMem { s with mem := s.mem.writeList s.cfg base bytes } (base + k) = bytes.getD k 0 := by
    rw [readMem_writeList, if_pos (by omega), Nat.add_sub_cancel_left]
  rcases fetch_cases { s with mem := s.mem.writeList s.cfg base bytes } with ⟨-, e⟩ | ⟨hout, -⟩
  · rw [e, hpc, Nat.add_assoc, hstored j (by omega), hstored (j + 1) hj]
  · simp only [hpc] at hout; omega

/-- A store at `I` that completes stayed in memory. -/
theorem storeAtIndex_inv {s t : State} {bytes : List Byte} (h0 : bytes.length ≠ 0) (h : s.storeAtIndex bytes = .next t) :
    s.index.toNat + bytes.length ≤ 4096 ∧ t = { s with mem := s.mem.writeList s.cfg s.index.toNat bytes } := by
  rcases storeAtIndex_cases s bytes with ⟨hr, e⟩ | ⟨f, -, e⟩ <;> cases e.symm.trans h
  have := rangeFault_eq_none.mp hr
  simp only [State.base] at this
  exact ⟨by omega, rfl⟩

/-- R87 for any instruction that stores at `I`: the Step after it fetches the stored bytes where the advanced `pc` points at them. -/
theorem fetch_of_step_store {i : Instr} {s t : State} {bytes : List Byte} {j : Nat} (hi : Executes s i)
    (he : exec i s.advance = s.advance.storeAtIndex bytes) (hst : step s = .next t) (hj : j + 1 < bytes.length)
    (hpc : s.pc.toNat + 2 = s.index.toNat + j) :
    t.fetch = .ok (wordOfBytes (bytes.getD j 0) (bytes.getD (j + 1) 0)) := by
  obtain ⟨w, m, hf, hm, rfl⟩ := step_eq_next.mp hst
  obtain rfl := executes_unique hi ⟨w, hf, rfl⟩
  obtain ⟨hb, rfl⟩ := storeAtIndex_inv (by omega) (he.symm.trans hm)
  have hadv : s.advance.pc.toNat = s.advance.index.toNat + j := by
    have := pc_le_of_executes hi
    simp only [State.advance_pc, State.advance_index, BitVec.toNat_add, BitVec.toNat_ofNat, BitVec.ofNat_eq_ofNat]; omega
  rw [complete_fetch, fetch_writeList s.advance hb hj hadv]

/-- The bytes `Fx33` stores as numbers: hundreds, tens, ones (R204). -/
theorem decimalDigits_getD_toNat (b : Byte) : ((decimalDigits b).getD 0 0).toNat = b.toNat / 100 ∧
    ((decimalDigits b).getD 1 0).toNat = b.toNat / 10 % 10 ∧ ((decimalDigits b).getD 2 0).toNat = b.toNat % 10 := by
  have := b.isLt
  simp only [decimalDigits, List.getD_cons_zero, List.getD_cons_succ, BitVec.toNat_ofNat]; omega

/-- Settles O19: `Fx55` stores the block and `Fx33` the digits, and the fetch reads two neighbours of what was stored. -/
theorem storedInstructionIsFetchedNext : Obligations.StoredInstructionIsFetchedNext := by
  refine ⟨fun x j k s t hi hst hk hkx hpc => ?_, fun x s t hi hst => ⟨fun hpc => ?_, fun hpc => ?_⟩⟩
  · have hkx' : k.val ≤ x.val := hkx
    have hjx : j ≤ x := Fin.le_def.mpr (by omega)
    rw [fetch_of_step_store hi rfl hst (by simp only [vBlock_length]; omega) hpc, ← hk, vBlock_getD _ hjx, vBlock_getD _ hkx,
      State.advance_getV, State.advance_getV]
  · obtain ⟨hundreds, tens, -⟩ := decimalDigits_getD_toNat (s.getV x)
    exact ⟨_, fetch_of_step_store (j := 0) hi rfl hst (by simp) hpc, by
      rw [wordOfBytes_toNat, State.advance_getV, hundreds, tens]⟩
  · obtain ⟨-, tens, ones⟩ := decimalDigits_getD_toNat (s.getV x)
    exact ⟨_, fetch_of_step_store (j := 1) hi rfl hst (by simp) hpc, by
      rw [wordOfBytes_toNat, State.advance_getV, tens, ones]⟩

/-- A table word of 16 bits is the word itself. -/
@[simp] theorem wordOfTableBits_toNat (w : Word) : wordOfTableBits 16 w.toNat = w := by
  simp [wordOfTableBits, Nat.mod_eq_of_lt w.isLt]

/-- The probe stores the two bytes of the word at `pc`, where `pc` can be fetched from. -/
theorem withFetchWord_eq {s : State} (h : s.pc.toNat ≤ 0xFFE) (w : Word) : s.withFetchWord 16 w.toNat =
    { s with mem := s.mem.writeList s.cfg s.pc.toNat [highByte w, lowByte w] } := by
  rcases storeBytes_cases s s.pc.toNat [highByte w, lowByte w] with ⟨-, e⟩ | ⟨f, hf, -⟩
  · simp [State.withFetchWord, e]
  · obtain ⟨⟨-, hout⟩, -⟩ := rangeFault_eq_some.mp hf
    simp only [List.length_cons, List.length_nil] at hout; omega

/-- Settles O34: the bytes of a word are read back as the word, by the decoder and, once stored at `pc`, by the fetch. -/
theorem tableWordIsDecodedAndFetched : Obligations.TableWordIsDecodedAndFetched := by
  refine fun s w => ⟨by simp [decodeTableWord, decodeBytes], fun hpc => ?_⟩
  rw [withFetchWord_eq hpc]
  refine ⟨?_, ?_, (writeList_changesOnly s _ _).mono ?_⟩
  · have hb : s.pc.toNat + [highByte w, lowByte w].length ≤ 4096 := by simp only [List.length_cons, List.length_nil]; omega
    exact (fetch_writeList s (j := 0) hb (by simp) rfl).trans (by simp)
  · simp [readMem_writeList, highByte]
  · rintro p ⟨k, hk, rfl⟩
    have : k = 0 ∨ k = 1 := by simp only [List.length_cons, List.length_nil] at hk; omega
    rcases this with rfl | rfl <;> simp

/-- Settles O54: the image is one store at `0x200`, and both the fault and the length told beside it hang on 3584. -/
theorem loadProgramCopiesTheImage : Obligations.LoadProgramCopiesTheImage := by
  refine fun bytes s => ⟨fun hlen => ⟨_, loadProgram_eq_next.mpr ⟨hlen, rfl⟩, fun k hk => ?_, writeList_changesOnly s _ _⟩,
    fun hlen => ⟨?_, if_pos hlen⟩⟩
  · rw [readMem_writeList, if_pos (by omega), Nat.add_sub_cancel_left, List.getD_eq_getElem _ _ hk]
  · exact if_pos hlen

end Sys2Proof.Machine
end

section
/-! SUPPORT. The opcode table read by the fields of a word (R105, R106), and the word that its own fields encode (R102, R103). -/

namespace Sys2Proof

theorem topNibble_lt (w : Word) : topNibble w < 16 := (w.extractLsb' 12 4).isLt

/-- Mask `FFFF` keeps the top nibble with the rest of the word. -/
theorem and_FFFF_eq_iff_topNibble {w v : Word} : w &&& 0xFFFF = v ↔ topNibble w = topNibble v ∧ w = v := by
  rw [and_FFFF_eq_iff]
  exact ⟨fun h => ⟨congrArg topNibble h, h⟩, And.right⟩

/-- R106 in the terms of R105: the rows in their order, read by the fields that the decode tree branches on. -/
theorem isDefinedWord_iff (w : Word) : isDefinedWord w = true ↔
    topNibble w = 0x0 ∧ w ∈ [0x00E0, 0x00EE] ∨
    topNibble w ∈ [0x1, 0x2, 0x3, 0x4] ∨
    topNibble w = 0x5 ∧ (fieldN w).val = 0x0 ∨
    topNibble w ∈ [0x6, 0x7] ∨
    topNibble w = 0x8 ∧ (fieldN w).val ∈ [0x0, 0x1, 0x2, 0x3, 0x4, 0x5, 0x6, 0x7, 0xE] ∨
    topNibble w = 0x9 ∧ (fieldN w).val = 0x0 ∨
    topNibble w ∈ [0xA, 0xB, 0xC, 0xD] ∨
    topNibble w = 0xE ∧ (fieldNn w).toNat ∈ [0x9E, 0xA1] ∨
    topNibble w = 0xF ∧ (fieldNn w).toNat ∈ [0x07, 0x0A, 0x15, 0x18, 0x1E, 0x29, 0x33, 0x55, 0x65] := by
  simp only [isDefinedWord, opcodeRows, opcodeRows0, opcodeRows8, opcodeRowsA, opcodeRowsF, OpcodeRow.selects, List.cons_append,
    List.nil_append, List.any_cons, List.any_nil, Bool.or_eq_true, beq_iff_eq, Bool.false_eq_true, or_false,
    List.mem_cons, List.not_mem_nil, and_or_left, or_assoc]
  simp (disch := decide) only [and_F000_eq_iff, and_F00F_eq_iff, and_F0FF_eq_iff, and_FFFF_eq_iff_topNibble, topNibble_eq,
    fieldN_val, fieldNn_toNat]
  -- what is left differs in the numerals of `value`, which evaluate
  rfl

/-- A word is the RI encoding of its fields. -/
theorem encodeRI_fields {w : Word} {op : Nat} {nn : Byte} (ht : topNibble w = op) (hn : (fieldNn w).toNat = nn.toNat) :
    encodeRI op (fieldX w) nn = w := by
  subst ht
  apply BitVec.eq_of_toNat_eq
  rw [encodeRI_toNat (topNibble_lt w), ← hn, topNibble_eq, fieldX_val, fieldNn_toNat]; omega

/-- A word is the RR or RRN encoding of its fields. -/
theorem encodeRR_fields {w : Word} {op n : Nat} (ht : topNibble w = op) (hn : (fieldN w).val = n) :
    encodeRR op (fieldX w) (fieldY w) n = w := by
  subst ht hn
  apply BitVec.eq_of_toNat_eq
  rw [encodeRR_toNat (topNibble_lt w) (fieldN w).isLt, topNibble_eq, fieldX_val, fieldY_val, fieldN_val]; omega

/-- A word is the A encoding of its fields. -/
theorem encodeA_fields {w : Word} {op : Nat} (ht : topNibble w = op) : encodeA op (fieldNnn w) = w := by
  subst ht
  apply BitVec.eq_of_toNat_eq
  rw [encodeA_toNat (topNibble_lt w), topNibble_eq, fieldNnn_toNat]; omega

end Sys2Proof
end

section
/-! PROOF. What the decode tree gives, branch by branch: a well-formed instruction with the word's own encoding (R105, R106). -/

namespace Sys2Proof

/-- The instruction is well-formed, and `w` is its word. -/
def Instr.HasWord (i : Instr) (w : Word) : Prop := encode i = w ∧ i.wellFormed = true

/-- A word that selects no row is the word of its no-op. -/
theorem hasWord_nop {w : Word} (h : ¬isDefinedWord w = true) : (Instr.nop w).HasWord w :=
  ⟨rfl, by simpa [Instr.wellFormed] using h⟩

/-- Group 0 compares the whole word (R109). -/
theorem decodeGroup0_hasWord {w : Word} (ht : topNibble w = 0x0) : (decodeGroup0 w).HasWord w := by
  unfold decodeGroup0
  split_ifs with hcls hret
  · exact ⟨hcls.symm, rfl⟩
  · exact ⟨hret.symm, rfl⟩
  · exact hasWord_nop (by simpa [isDefinedWord_iff, ht] using ⟨hcls, hret⟩)

/-- Group 5 wants a low nibble of 0 (R110). -/
theorem decodeGroup5_hasWord {w : Word} (ht : topNibble w = 0x5) : (decodeGroup5 w).HasWord w := by
  unfold decodeGroup5
  split_ifs with hn
  · exact ⟨encodeRR_fields ht (congrArg Fin.val hn), rfl⟩
  · exact hasWord_nop (by simp [isDefinedWord_iff, ht, hn])

/-- Group 9 wants a low nibble of 0 (R110). -/
theorem decodeGroup9_hasWord {w : Word} (ht : topNibble w = 0x9) : (decodeGroup9 w).HasWord w := by
  unfold decodeGroup9
  split_ifs with hn
  · exact ⟨encodeRR_fields ht (congrArg Fin.val hn), rfl⟩
  · exact hasWord_nop (by simp [isDefinedWord_iff, ht, hn])

/-- Group 8 has a row for each of nine low nibbles. -/
theorem decodeGroup8_hasWord {w : Word} (ht : topNibble w = 0x8) : (decodeGroup8 w).HasWord w := by
  unfold decodeGroup8
  split
  case h_10 => exact hasWord_nop (by simp_all [isDefinedWord_iff])
  all_goals exact ⟨encodeRR_fields ht (by assumption), rfl⟩

/-- Group E has a row for each of two low bytes. -/
theorem decodeGroupE_hasWord {w : Word} (ht : topNibble w = 0xE) : (decodeGroupE w).HasWord w := by
  unfold decodeGroupE
  split
  case h_3 => exact hasWord_nop (by simp_all [isDefinedWord_iff])
  all_goals exact ⟨encodeRI_fields ht (by assumption), rfl⟩

/-- Group F has a row for each of nine low bytes. -/
theorem decodeGroupF_hasWord {w : Word} (ht : topNibble w = 0xF) : (decodeGroupF w).HasWord w := by
  unfold decodeGroupF
  split
  case h_10 => exact hasWord_nop (by simp_all [isDefinedWord_iff])
  all_goals exact ⟨encodeRI_fields ht (by assumption), rfl⟩

/-- Every branch of the tree keeps all bits of its word: in the fields of a format, or in a no-op where the table has no row. -/
theorem decode_hasWord (w : Word) : (decode w).HasWord w := by
  have hlt := topNibble_lt w
  unfold decode
  split
  next ht => exact decodeGroup0_hasWord ht
  next ht => exact ⟨encodeA_fields ht, rfl⟩
  next ht => exact ⟨encodeA_fields ht, rfl⟩
  next ht => exact ⟨encodeRI_fields ht rfl, rfl⟩
  next ht => exact ⟨encodeRI_fields ht rfl, rfl⟩
  next ht => exact decodeGroup5_hasWord ht
  next ht => exact ⟨encodeRI_fields ht rfl, rfl⟩
  next ht => exact ⟨encodeRI_fields ht rfl, rfl⟩
  next ht => exact decodeGroup8_hasWord ht
  next ht => exact decodeGroup9_hasWord ht
  next ht => exact ⟨encodeA_fields ht, rfl⟩
  next ht => exact ⟨encodeA_fields ht, rfl⟩
  next ht => exact ⟨encodeRI_fields ht rfl, rfl⟩
  next ht => exact ⟨encodeRR_fields ht rfl, rfl⟩
  next ht => exact decodeGroupE_hasWord ht
  next =>
    have ht : topNibble w = 0xF := by simp only [imp_false] at *; omega
    exact decodeGroupF_hasWord ht

/-- Settles O30: both halves are what every branch of the decode tree keeps. -/
theorem encodeInvertsDecode : Obligations.EncodeInvertsDecode := decode_hasWord

end Sys2Proof
end

section
/-! PROOF. Decode tree, encoder and opcode table say the same (R103, R105, R106). -/

namespace Sys2Proof

/-- Every encoding selects the row of its mnemonic. -/
theorem Laws.encodesItsRow : (i : Instr) → EncodesItsRow.Statement i
  | .cls => EncodesItsRow.cls
  | .ret => EncodesItsRow.ret
  | .jpNnn nnn => EncodesItsRow.jpNnn nnn
  | .callNnn nnn => EncodesItsRow.callNnn nnn
  | .seVxNn x nn => EncodesItsRow.seVxNn x nn
  | .sneVxNn x nn => EncodesItsRow.sneVxNn x nn
  | .seVxVy x y => EncodesItsRow.seVxVy x y
  | .ldVxNn x nn => EncodesItsRow.ldVxNn x nn
  | .addVxNn x nn => EncodesItsRow.addVxNn x nn
  | .ldVxVy x y => EncodesItsRow.ldVxVy x y
  | .orVxVy x y => EncodesItsRow.orVxVy x y
  | .andVxVy x y => EncodesItsRow.andVxVy x y
  | .xorVxVy x y => EncodesItsRow.xorVxVy x y
  | .addVxVy x y => EncodesItsRow.addVxVy x y
  | .subVxVy x y => EncodesItsRow.subVxVy x y
  | .shrVx x y => EncodesItsRow.shrVx x y
  | .subnVxVy x y => EncodesItsRow.subnVxVy x y
  | .shlVx x y => EncodesItsRow.shlVx x y
  | .sneVxVy x y => EncodesItsRow.sneVxVy x y
  | .ldINnn nnn => EncodesItsRow.ldINnn nnn
  | .jpV0Nnn nnn => EncodesItsRow.jpV0Nnn nnn
  | .rndVxNn x nn => EncodesItsRow.rndVxNn x nn
  | .drwVxVyN x y n => EncodesItsRow.drwVxVyN x y n
  | .skpVx x => EncodesItsRow.skpVx x
  | .sknpVx x => EncodesItsRow.sknpVx x
  | .ldVxDt x => EncodesItsRow.ldVxDt x
  | .ldVxK x => EncodesItsRow.ldVxK x
  | .ldDtVx x => EncodesItsRow.ldDtVx x
  | .ldStVx x => EncodesItsRow.ldStVx x
  | .addIVx x => EncodesItsRow.addIVx x
  | .ldFVx x => EncodesItsRow.ldFVx x
  | .ldBVx x => EncodesItsRow.ldBVx x
  | .ldMemVx x => EncodesItsRow.ldMemVx x
  | .ldVxMem x => EncodesItsRow.ldVxMem x
  | .nop w => EncodesItsRow.nop w

/-- A word that is not defined is a word that selects no row. -/
theorem isDefinedWord_eq_false_iff {w : Word} : isDefinedWord w = false ↔ ∀ r ∈ opcodeRows, w &&& r.mask ≠ r.value := by
  simp [isDefinedWord, OpcodeRow.selects]

/-- A word selects the row of the instruction it decodes to, or decodes to the no-op and selects none. -/
theorem decode_row (w : Word) :
    (∃ r ∈ opcodeRows, r.mnemonic = (decode w).mnemonic ∧ w &&& r.mask = r.value) ∨
    (decode w = .nop w ∧ ∀ r ∈ opcodeRows, w &&& r.mask ≠ r.value) := by
  obtain ⟨hword, hwf⟩ := decode_hasWord w
  rcases Laws.encodesItsRow (decode w) with ⟨r, hr, hm, hs⟩ | ⟨v, hv⟩
  · exact .inl ⟨r, hr, hm, by simpa [OpcodeRow.selects, hword] using hs⟩
  · rw [hv] at hword hwf
    obtain rfl : v = w := hword
    exact .inr ⟨hv, isDefinedWord_eq_false_iff.mp (by simpa [Instr.wellFormed] using hwf)⟩

/-- A word that selects no row decodes to the no-op (R260). -/
theorem decode_of_not_isDefinedWord {w : Word} (h : isDefinedWord w = false) : decode w = .nop w := by
  rcases decode_row w with ⟨r, hr, -, hs⟩ | ⟨hd, -⟩
  · exact absurd hs (isDefinedWord_eq_false_iff.mp h r hr)
  · exact hd

/-- Each format gives its fields back, and a well-formed no-op is of a word that selects no row. -/
theorem decode_encode {i : Instr} (h : i.wellFormed = true) : decode (encode i) = i := by
  cases i with
  | cls | ret => rfl
  -- format A
  | jpNnn | callNnn | ldINnn | jpV0Nnn => simp [encode, decode, fields_encodeA]
  -- format RI
  | seVxNn | sneVxNn | ldVxNn | addVxNn | rndVxNn => simp [encode, decode, fields_encodeRI]
  -- formats RR and RRN
  | seVxVy => simp [encode, decode, decodeGroup5, fields_encodeRR]
  | sneVxVy => simp [encode, decode, decodeGroup9, fields_encodeRR]
  | ldVxVy | orVxVy | andVxVy | xorVxVy | addVxVy | subVxVy | shrVx | subnVxVy | shlVx =>
    simp [encode, decode, decodeGroup8, fields_encodeRR]
  | drwVxVyN => simp [encode, decode, fields_encodeRR]
  -- format RF
  | skpVx | sknpVx => simp [encode, decode, decodeGroupE, fields_encodeRI]
  | ldVxDt | ldVxK | ldDtVx | ldStVx | addIVx | ldFVx | ldBVx | ldMemVx | ldVxMem =>
    simp [encode, decode, decodeGroupF, fields_encodeRI]
  | nop w => exact decode_of_not_isDefinedWord (w := w) (by simpa [Instr.wellFormed] using h)

/-- Settles O29: format by format for the word, and the two bytes are put together to the word. -/
theorem decodeInvertsEncode : Obligations.DecodeInvertsEncode := fun i h =>
  ⟨decode_encode h, by simp [decodeBytes, encodeBytes, decode_encode h]⟩

/-- The mnemonics of the defined rows are distinct. -/
theorem mnemonics_nodup : (opcodeRows.map OpcodeRow.mnemonic).Nodup := by decide

/-- No defined row is called as the no-op is. -/
theorem mnemonic_ne_nop : ∀ r ∈ opcodeRows, "NOP" ≠ r.mnemonic := by decide

/-- No word selects both rows (R106). -/
def OpcodeRow.Disjoint (r r' : OpcodeRow) : Prop := ∀ w : Word, ¬(w &&& r.mask = r.value ∧ w &&& r'.mask = r'.value)

theorem OpcodeRow.disjoint_symm : Std.Symm OpcodeRow.Disjoint := ⟨fun _ _ h w hs => h w hs.symm⟩

/-- Rows are disjoint where their values differ in a bit that both masks keep. -/
theorem OpcodeRow.disjoint_of_values {r r' : OpcodeRow} (h : r.value &&& r'.mask ≠ r'.value &&& r.mask) : r.Disjoint r' := by
  rintro w ⟨hr, hr'⟩
  apply h
  rw [← hr, ← hr', BitVec.and_assoc, BitVec.and_assoc, BitVec.and_comm r.mask]

/-- R106: the 34 rows are pairwise disjoint. -/
theorem opcodeRows_disjoint : opcodeRows.Pairwise OpcodeRow.Disjoint :=
  have hvalues : opcodeRows.Pairwise (fun r r' => r.value &&& r'.mask ≠ r'.value &&& r.mask) := by decide
  hvalues.imp OpcodeRow.disjoint_of_values

/-- A word selects at most one row. -/
theorem row_unique {w : Word} {r r' : OpcodeRow} (hr : r ∈ opcodeRows) (hr' : r' ∈ opcodeRows)
    (hs : w &&& r.mask = r.value) (hs' : w &&& r'.mask = r'.value) : r = r' := by
  have := OpcodeRow.disjoint_symm
  by_contra hne
  exact opcodeRows_disjoint.forall hr hr' hne w ⟨hs, hs'⟩

/-- Settles O31: a word selects the row of what it decodes to, no second one, and no two rows share a mnemonic. -/
theorem decodeAgreesWithTheOpcodeTable : Obligations.DecodeAgreesWithTheOpcodeTable := by
  refine ⟨rfl, opcodeRows_disjoint, fun w r hr => ?_, fun w => ?_⟩
  · rcases decode_row w with ⟨r', hr', hm, hs⟩ | ⟨hd, hnone⟩
    · refine ⟨fun h => ?_, fun h => ?_⟩
      · rw [row_unique hr hr' h hs, hm]
      · rwa [List.inj_on_of_nodup_map mnemonics_nodup hr hr' (h.symm.trans hm.symm)]
    · rw [hd]
      exact iff_of_false (hnone r hr) (mnemonic_ne_nop r hr)
  · rcases decode_row w with ⟨r, hr, hm, hs⟩ | ⟨hd, hnone⟩
    · exact iff_of_false (fun h => h r hr hs) (fun hd => mnemonic_ne_nop r hr (by rw [hm, hd]; rfl))
    · exact iff_of_true hnone hd

/-- Settles O32: the decode tree evaluated at each word. -/
theorem sampleWordsDecode : Obligations.SampleWordsDecode := ⟨rfl, rfl, rfl, rfl, rfl, rfl, rfl, rfl⟩

end Sys2Proof
end

section
/-! PROOF. The line a word disassembles to assembles to the word (R114 to R117). -/

namespace Sys2Proof

@[simp] theorem asmByte_toNat (b : Byte) : asmByte b.toNat = some b := by simp [asmByte, b.isLt]

@[simp] theorem asmAddress_toNat (a : Address) : asmAddress a.toNat = some a := by simp [asmAddress, a.isLt]

@[simp] theorem asmNibble_val (n : Fin 16) : asmNibble n.val = some n := by simp [asmNibble]

@[simp] theorem assembleWord_dwLine (w : Word) : assembleWord (dwLine w).1 (dwLine w).2 = some w := by
  simp [assembleWord, dwLine, w.isLt]

/-- Settles O33: an instruction's line is read back as that instruction, whose word is the one decoded, and `DW` carries the word. -/
theorem assemblingADisassemblyGivesTheWord : Obligations.AssemblingADisassemblyGivesTheWord := by
  intro w
  obtain ⟨hword, -⟩ := decode_hasWord w
  unfold disassemble
  cases hd : decode w <;> rw [hd] at hword
  case nop => exact assembleWord_dwLine w
  case shrVx x y | shlVx x y =>
    by_cases hy : y = 0
    · subst hy
      simp [assembleWord, assembleInstr, hword]
    · simp [hy]
  -- the operands of any other line are the instruction's own, so its kinds select that instruction again
  all_goals simp [assembleWord, assembleInstr, hword]

end Sys2Proof
end

section
/-! PROOF. The Step cycle, from fetch to completion (R130 to R139), and what a fault leaves of it (R137). -/

namespace Sys2Proof.Machine

/-- A state executes the instruction that its two bytes at `pc` decode to (R131, R132). -/
theorem executes_of_bytes {s : State} (hpc : s.pc.toNat ≤ 0xFFE) :
    Executes s (decode (wordOfBytes (s.readMem s.pc.toNat) (s.readMem (s.pc.toNat + 1)))) := by
  rcases fetch_cases s with ⟨-, hf⟩ | ⟨hout, -⟩
  · exact ⟨_, hf, rfl⟩
  · omega

/-- Settles O35: the decoder on bytes is the decoder on their word, and what follows `exec` is `finishStep`. -/
theorem stepRunsTheDecodedInstruction : Obligations.StepRunsTheDecodedInstruction := by
  intro i s hpc hd ready
  have hexec : Executes s i := by
    cases hd
    exact executes_of_bytes hpc
  have hready : s.advance = ready := rfl
  refine ⟨hexec, ?_⟩
  rw [step_of_executes hexec, hready]
  cases exec i ready <;> rfl

/-- A fetch that faults leaves every part of the core as it was (R131, R137). -/
theorem stateAfterFault_changesOnly_of_fetch_error {s : State} {f : Fault} (hf : s.fetch = .error f) :
    ChangesOnly (fun p => p ∈ [.keyInput, .dispDirty, .undefOp]) s (stateAfterFault s) := by
  rw [stateAfterFault_of_fetch_error hf]
  intro p hp
  cases p <;> simp_all [Part.Same]

/-- Settles O36: the fetch has its word or the fault of its range, and a fetch that faults is all its Step does. -/
theorem fetchReadsTwoBytesOrFaults : Obligations.FetchReadsTwoBytesOrFaults := by
  intro s
  rcases fetch_cases s with ⟨hin, hf⟩ | ⟨hout, hf⟩
  · exact ⟨fun _ => ⟨_, hf, by rw [wordOfBytes_toNat, Nat.mul_comm]⟩, by omega, by omega, by omega⟩
  · have hst := step_eq_fault.mpr (.inl hf)
    refine ⟨by omega, fun hpc => ?_, fun hpc => ?_, fun _ => stateAfterFault_changesOnly_of_fetch_error hf⟩
    · rw [hst, hpc]; rfl
    · rw [hst, Nat.max_eq_left hpc]

/-- Settles O37: the completed timers are those of the dispatched state, ticked. -/
theorem timersTickAfterDispatch : Obligations.TimersTickAfterDispatch := by
  intro s m w hf he
  refine ⟨m.complete, step_eq_next.mpr ⟨w, m, hf, he, rfl⟩, ?_⟩
  rw [State.complete_dt, State.complete_st, tickDown_toNat, tickDown_toNat]
  exact ⟨fun _ => rfl, fun h => by omega, fun _ => rfl, fun h => by omega⟩

/-- Settles O42: the fetch faulted, or the instruction it fetched did. -/
theorem faultingStepChangesOnlyPc : Obligations.FaultingStepChangesOnlyPc := by
  intro s f hst
  rcases step_eq_fault.mp hst with hf | ⟨w, hf, he⟩
  · exact .inl ⟨hf, stateAfterFault_changesOnly_of_fetch_error hf⟩
  · exact .inr ⟨⟨decode w, w, hf, rfl⟩, faultsInExecution_of_exec ⟨w, hf, rfl⟩ he⟩

/-- A Step that completes counts itself once and takes one key sample: no instruction touches either (R136; logs 25, 27). -/
theorem counters_of_step {s t : State} (hst : step s = .next t) :
    t.icount = s.icount + 1 ∧ t.keySamples = s.keySamples + 1 := by
  obtain ⟨w, m, -, he, rfl⟩ := step_eq_next.mp hst
  obtain ⟨-, hcount, -, hsamples, -⟩ := specialStateIsWrittenOnlyByItsInstructions _ _ _ he
  simp [hcount, hsamples]

/-- Settles O38, by induction on the number of Steps, the last one taken off. -/
theorem runCountsItsSteps : Obligations.RunCountsItsSteps := by
  intro k s t hrun
  induction k generalizing t with
  | zero =>
    cases hrun
    exact ⟨(Nat.mod_eq_of_lt s.icount.isLt).symm, rfl⟩
  | succ k ih =>
    obtain ⟨u, hu, hst⟩ := run_succ_eq_next_last.mp hrun
    obtain ⟨hcount, hsamples⟩ := ih u hu
    obtain ⟨hc, hs⟩ := counters_of_step hst
    refine ⟨?_, by omega⟩
    have hone : (1 : BitVec 64).toNat = 1 := rfl
    rw [hc, BitVec.toNat_add, hcount, hone, Nat.mod_add_mod, Nat.add_assoc]

end Sys2Proof.Machine
end

section
/-! PROOF. A program at a jump to itself stays there (R141; log 29). -/

namespace Sys2Proof.Machine

/-- A finished program executes the jump to its own `pc`. -/
theorem finished_iff {s : State} : finished s = true ↔ Executes s (.jpNnn (s.pc.setWidth 12)) := by
  unfold finished Executes
  cases s.fetch <;> simp

/-- An address that can be fetched from is its own 12 low bits. -/
theorem setWidth_pc_of_fetchable {s : State} (hpc : s.pc.toNat ≤ 0xFFE) : (s.pc.setWidth 12).setWidth 16 = s.pc := by
  apply BitVec.eq_of_toNat_eq
  simp only [BitVec.toNat_setWidth]
  omega

/-- The Step of a finished program puts `pc` back and completes. -/
theorem step_of_finished {s : State} (h : finished s = true) : step s = .next (s.advance.setPc s.pc).complete := by
  have hexec := finished_iff.mp h
  rw [step_of_executes hexec]
  simp only [exec, execJpNnn, setWidth_pc_of_fetchable (pc_le_of_executes hexec), finishStep]

/-- With `pc` put back, only the timers, the counter and the Step's own inputs and strobes are other than before. -/
theorem changesOnly_setPc_complete (s : State) :
    ChangesOnly (fun p => p ∈ [.dt, .st, .icount, .keyInput, .dispDirty, .undefOp]) s (s.advance.setPc s.pc).complete := by
  intro p hp
  cases p <;> simp_all [Part.Same]

/-- With `pc` put back, the next fetch reads the same two bytes, so the program is as finished as it was. -/
theorem finished_setPc_complete (s : State) : finished (s.advance.setPc s.pc).complete = finished s := by
  have hfetch : (s.advance.setPc s.pc).fetch = s.fetch := rfl
  simp only [finished, complete_fetch, hfetch, State.complete_pc, State.setPc_pc]

/-- Settles O58, by induction on the number of Steps, the last one a jump to its own address. -/
theorem finishedProgramStaysFinished : Obligations.FinishedProgramStaysFinished := by
  intro j s hfin
  induction j with
  | zero => exact ⟨s, rfl, hfin, ChangesOnly.refl _ s⟩
  | succ j ih =>
    obtain ⟨t, hrun, ht, hframe⟩ := ih
    exact ⟨_, run_succ_eq_next_last.mpr ⟨t, hrun, step_of_finished ht⟩, (finished_setPc_complete t).trans ht,
      hframe.trans (changesOnly_setPc_complete t)⟩

end Sys2Proof.Machine
end

section
/-! PROOF. A Step depends on the key vectors and on the random bytes only where its instruction reads them (R57, R58, R140). -/

namespace Sys2Proof.Machine

/-- One of the two inputs of the Steps to come, replaced: the key vectors or the random bytes, with the count of those used up. -/
inductive InputChange where
  | keys (ks : List Word) (n : Nat)
  | random (bs : List Byte) (n : Nat)

/-- The state with that input replaced. -/
def State.withInput (s : State) : InputChange → State
  | .keys ks n => { s with keyInputs := ks, keySamples := n }
  | .random bs n => { s with rndInputs := bs, rndDraws := n }

/-- The instruction does not read that input. -/
def InputChange.Unread (i : Instr) : InputChange → Prop
  | .keys _ _ => readsKeys i = false
  | .random _ _ => ∀ x nn, i ≠ .rndVxNn x nn

/-- What a Step that does not read the input leaves of it: a key vector is used up (D26; log 27), a random byte is not. -/
def InputChange.afterStep : InputChange → InputChange
  | .keys ks n => .keys ks.tail (n + 1)
  | .random bs n => .random bs n

section

variable (s : State) (c : InputChange)

@[simp] theorem withInput_stack : (s.withInput c).stack = s.stack := by cases c <;> rfl
@[simp] theorem withInput_stackFull : (s.withInput c).stackFull = s.stackFull := by cases c <;> rfl
@[simp] theorem withInput_base : (s.withInput c).base = s.base := by cases c <;> rfl
@[simp] theorem withInput_getV (x : Reg) : (s.withInput c).getV x = s.getV x := by cases c <;> rfl
@[simp] theorem withInput_vBlock (x : Reg) : (s.withInput c).vBlock x = s.vBlock x := by cases c <;> rfl
@[simp] theorem withInput_fetch : (s.withInput c).fetch = s.fetch := by cases c <;> rfl
@[simp] theorem withInput_loadBytes (base len : Nat) : (s.withInput c).loadBytes base len = s.loadBytes base len := by
  cases c <;> rfl
@[simp] theorem advance_withInput : (s.withInput c).advance = s.advance.withInput c := by cases c <;> rfl

/-- The completion uses up a key vector and no random byte. -/
theorem complete_withInput : (s.withInput c).complete = s.complete.withInput c.afterStep := by cases c <;> rfl

/-- A skip reads no input itself. -/
theorem skipIf_withInput (cond : Bool) : (s.withInput c).skipIf cond = (s.skipIf cond).withInput c := by
  cases c <;> cases cond <;> rfl

/-- A store at `I` reads no input. -/
theorem storeAtIndex_withInput (bytes : List Byte) :
    (s.withInput c).storeAtIndex bytes = onNext (·.withInput c) (s.storeAtIndex bytes) := by
  simp only [State.storeAtIndex, State.storeBytes, withInput_base]
  cases rangeFault s.base bytes.length <;> cases c <;> rfl

variable {s c}

/-- An instruction that reads the key levels finds the same ones where an input it does not read is replaced: that input is the
random bytes. -/
theorem withInput_keys {i : Instr} (hr : readsKeys i = true) (hc : c.Unread i) : (s.withInput c).keys = s.keys := by
  cases c with
  | keys ks n => exact absurd hc (by simp [InputChange.Unread, hr])
  | random bs n => rfl

/-- An instruction that does not read the input answers the same with another one, and leaves the one it was given. -/
theorem exec_withInput {i : Instr} (hc : c.Unread i) : exec i (s.withInput c) = onNext (·.withInput c) (exec i s) := by
  cases i
  case ret =>
    simp only [exec, execRet, State.pop, withInput_stack]
    cases s.stack <;> cases c <;> rfl
  case callNnn nnn =>
    simp only [exec, execCallNnn, State.push, withInput_stackFull]
    cases s.stackFull <;> cases c <;> rfl
  case seVxNn | sneVxNn | seVxVy | sneVxVy =>
    simp only [exec, execSeVxNn, execSneVxNn, execSeVxVy, execSneVxVy, withInput_getV, skipIf_withInput]; rfl
  case skpVx | sknpVx =>
    simp only [exec, execSkpVx, execSknpVx, withInput_getV, withInput_keys rfl hc, skipIf_withInput]; rfl
  case ldVxK x =>
    simp only [exec, execLdVxK, withInput_keys rfl hc]
    cases lowestKey s.keys <;> cases c <;> rfl
  case rndVxNn x nn =>
    cases c with
    | keys ks n => rfl
    | random bs n => exact absurd rfl (hc x nn)
  case drwVxVyN x y n =>
    simp only [exec, execDrwVxVyN, withInput_base, withInput_loadBytes]
    cases s.loadBytes s.base n.val <;> cases c <;> rfl
  case ldBVx x => simp only [exec, execLdBVx, withInput_getV, storeAtIndex_withInput]
  case ldMemVx x => simp only [exec, execLdMemVx, withInput_vBlock, storeAtIndex_withInput]
  case ldVxMem x =>
    simp only [exec, execLdVxMem, withInput_base, withInput_loadBytes]
    cases s.loadBytes s.base (x.val + 1) <;> cases c <;> rfl
  -- every other meaning is one update of fields, neither input among them
  all_goals cases c <;> rfl

/-- Two Steps that differ in an input their instruction does not read differ in nothing but what is left of that input (R140). -/
theorem step_withInput {w : Word} (hf : s.fetch = .ok w) (hc : c.Unread (decode w)) :
    step (s.withInput c) = onNext (·.withInput c.afterStep) (step s) := by
  simp only [step, withInput_fetch, hf, advance_withInput, exec_withInput hc]
  cases exec (decode w) s.advance with
  | next m => exact congrArg Host.Outcome.next (complete_withInput m c)
  | fault f => rfl
  | refused r => rfl

end

/-- Settles O47: both clauses are the one about an input that the instruction does not read. -/
theorem stepIsIndependentOfInputsItDoesNotRead : Obligations.StepIsIndependentOfInputsItDoesNotRead := fun _ _ hf =>
  ⟨fun hk ks n => step_withInput (c := .keys ks n) hf hk, fun hr bs n => step_withInput (c := .random bs n) hf hr⟩

end Sys2Proof.Machine
end

section
/-! SUPPORT. The word that a statement writes out as a number is the one that `encode` gives (R103). -/

namespace Sys2Proof

/-- A number that is the encoding of a well-formed instruction decodes to it. -/
theorem decode_ofNat {i : Instr} {n : Nat} (hi : i.wellFormed = true) (hn : n = (encode i).toNat) :
    decode (BitVec.ofNat 16 n) = i := by
  rw [hn, BitVec.ofNat_toNat, BitVec.setWidth_eq, decode_encode hi]

end Sys2Proof
end

section
/-! SUPPORT. The stack as entries (R50, R51), and what call, return, jump and skip leave of the state (R150 to R158). -/

namespace Sys2Proof.Machine

/-- When the stack takes another entry (R51). -/
theorem stackFull_eq_false_iff (s : State) : s.stackFull = false ↔ ∀ d, s.cfg.stackDepth = some d → s.sp < d := by
  rw [← Bool.not_eq_true, stackFull_iff]
  simp

section

variable {s t : State} {w : Word}

/-- A stack with one more entry has a pointer one higher (R50). -/
theorem sp_of_stack_eq_cons (h : t.stack = w :: s.stack) : t.sp = s.sp + 1 := congrArg List.length h

/-- A stack with one more entry has the same ones below it (R50). -/
theorem stackEntry_of_lt_sp (h : t.stack = w :: s.stack) {k : Nat} (hk : k < s.sp) : t.stackEntry k = s.stackEntry k := by
  simp only [State.stackEntry, h, List.reverse_cons]
  exact List.getElem?_append_left (by rwa [List.length_reverse])

end

/-- A write of `pc` changes nothing else. -/
theorem changesOnly_setPc (s : State) (w : Word) : ChangesOnly (fun p => p ∈ [Part.pc]) s (s.setPc w) := by
  intro p hp
  cases p <;> simp_all [Part.Same]

/-- A stack replaced and `pc` written: the frame of call and return. -/
theorem changesOnly_setStack_setPc (s : State) (stack : List Word) (w : Word) :
    ChangesOnly (fun p => p ∈ [Part.pc, Part.stack]) s ({ s with stack := stack }.setPc w) := by
  intro p hp
  cases p <;> simp_all [Part.Same, State.getV, State.readMem, State.getPixel]

/-- A skip changes `pc` or nothing. -/
theorem changesOnly_skipIf (s : State) (cond : Bool) : ChangesOnly (fun p => p ∈ [Part.pc]) s (s.skipIf cond) := by
  cases cond with
  | false => exact ChangesOnly.refl _ s
  | true => exact changesOnly_setPc s _

/-- A skip on equality, with the bytes compared as numbers. -/
theorem skipIf_beq_pc (s : State) (a b : Byte) :
    (s.skipIf (a == b)).pc = if a.toNat = b.toNat then s.pc + 2 else s.pc := by
  simp only [State.skipIf_pc, beq_iff_eq, BitVec.toNat_inj]

/-- A skip on inequality, with the bytes compared as numbers. -/
theorem skipIf_bne_pc (s : State) (a b : Byte) :
    (s.skipIf (a != b)).pc = if a.toNat = b.toNat then s.pc else s.pc + 2 := by
  simp only [State.skipIf_pc, bne_iff_ne, BitVec.toNat_inj, ne_eq, ite_not]

/-- `00EE` on a stack with an entry (R150). -/
theorem exec_ret_eq_next {s : State} {w : Word} {rest : List Word} (hs : s.stack = w :: rest) :
    exec .ret s = .next ({ s with stack := rest }.setPc w) := by
  simp only [exec, execRet, State.pop, hs]

/-- `2nnn` on a stack that takes another entry (R152). -/
theorem exec_callNnn_eq_next {s : State} (nnn : Address) (hs : s.stackFull = false) :
    exec (.callNnn nnn) s = .next ({ s with stack := s.pc :: s.stack }.setPc (nnn.setWidth 16)) := by
  rcases push_cases s s.pc with ⟨-, e⟩ | ⟨hfull, -⟩
  · simp only [exec, execCallNnn, e]
  · cases hs.symm.trans hfull

/-- A call that completes leaves its return address on top of the stack it found (R133, R152). -/
theorem stack_of_step_call {s t : State} {nnn : Address} (hi : Executes s (.callNnn nnn)) (hst : step s = .next t) :
    t.stack = (s.pc + 2) :: s.stack := by
  rw [step_of_executes hi] at hst
  cases hfull : s.advance.stackFull with
  | false =>
    rw [exec_callNnn_eq_next nnn hfull] at hst
    cases hst
    rfl
  | true =>
    rw [exec_eq_fault.mpr (.inr (.inl ⟨⟨nnn, rfl⟩, hfull, rfl⟩))] at hst
    cases hst

end Sys2Proof.Machine
end

section
/-! PROOF. Control transfer: return, jump, call, jump with offset and the register skips (R150 to R158). -/

namespace Sys2Proof.Machine

/-- Settles O55: the return pops the address that the call pushed. -/
theorem returnGoesPastItsCall : Obligations.ReturnGoesPastItsCall := by
  intro nnn s t u w hcall hst hstack hret hsw
  have hpushed : u.advance.stack = (s.pc + 2) :: s.stack := hstack.trans (stack_of_step_call hcall hst)
  rw [step_of_executes hret, exec_ret_eq_next hpushed] at hsw
  cases hsw
  exact ⟨rfl, rfl⟩

/-- Settles O1: a stack without entries is what `00EE` faults on, and any other one has a top. -/
theorem returnPopsTheMostRecentEntry : Obligations.ReturnPopsTheMostRecentEntry := by
  refine ⟨rfl, fun s hsp => ?_, fun s hi hsp => faultsInExecution_of_exec hi (exec_eq_fault.mpr (.inl ⟨rfl, hsp, rfl⟩))⟩
  cases hs : s.stack with
  | nil => exact absurd (congrArg List.length hs) hsp
  | cons w rest =>
    have hpopped : s.stack = w :: ({ s with stack := rest }.setPc w).stack := hs
    exact ⟨_, exec_ret_eq_next hs, (stackEntry_of_stack_eq_cons hs).symm,
      Nat.eq_sub_of_add_eq (sp_of_stack_eq_cons hpopped).symm, fun k hk => (stackEntry_of_lt_sp hpopped hk).symm,
      changesOnly_setStack_setPc s rest w⟩

/-- Settles O2: the operand, widened to the width of `pc`. -/
theorem jumpPutsTheAddressIntoPc : Obligations.JumpPutsTheAddressIntoPc := fun nnn =>
  ⟨decode_ofNat rfl (encodeA_toNat (op := 0x1) (by decide) nnn).symm,
    fun s => ⟨_, rfl, BitVec.toNat_setWidth_of_le (by decide), changesOnly_setPc s _⟩⟩

/-- Settles O3: below the depth the advanced `pc` becomes the top entry, and at the depth the push faults. -/
theorem callPushesTheAdvancedPc : Obligations.CallPushesTheAdvancedPc := by
  refine fun nnn => ⟨decode_ofNat rfl (encodeA_toNat (op := 0x2) (by decide) nnn).symm, fun s hroom => ?_, fun s hi hd => ?_⟩
  · have hpushed : ({ s with stack := s.pc :: s.stack }.setPc (nnn.setWidth 16)).stack = s.pc :: s.stack := rfl
    exact ⟨_, exec_callNnn_eq_next nnn ((stackFull_eq_false_iff s).mpr hroom), stackEntry_of_stack_eq_cons hpushed,
      sp_of_stack_eq_cons hpushed, fun k hk => stackEntry_of_lt_sp hpushed hk, BitVec.toNat_setWidth_of_le (by decide),
      changesOnly_setStack_setPc s _ _⟩
  · have hfull : s.advance.stackFull = true := (stackFull_iff s.advance).mpr ⟨s.sp, hd, le_rfl⟩
    exact faultsInExecution_of_exec hi (exec_eq_fault.mpr (.inr (.inl ⟨⟨nnn, rfl⟩, hfull, rfl⟩)))

/-- Settles O4: the target is the masked sum, as a number. -/
theorem offsetJumpMasksTheSum : Obligations.OffsetJumpMasksTheSum := fun nnn =>
  ⟨decode_ofNat rfl (encodeA_toNat (op := 0xB) (by decide) nnn).symm,
    fun s => ⟨_, rfl, offsetTarget_toNat (s.getV 0) nnn, changesOnly_setPc s _⟩⟩

/-- Settles O5: one comparison, on which `3xnn` and `4xnn` skip in opposite cases. -/
theorem immediateSkipsCompareRegisterAndByte : Obligations.ImmediateSkipsCompareRegisterAndByte := fun x nn =>
  ⟨decode_ofNat rfl (by rw [encode, encodeRI_toNat (by decide), Nat.mul_comm x.val]),
    decode_ofNat rfl (by rw [encode, encodeRI_toNat (by decide), Nat.mul_comm x.val]),
    fun s => ⟨_, _, rfl, rfl, skipIf_beq_pc s _ _, skipIf_bne_pc s _ _, changesOnly_skipIf s _, changesOnly_skipIf s _⟩⟩

/-- Settles O6: one comparison, on which `5xy0` and `9xy0` skip in opposite cases. -/
theorem registerSkipsCompareTwoRegisters : Obligations.RegisterSkipsCompareTwoRegisters := fun x y =>
  ⟨decode_ofNat rfl (by rw [encode, encodeRR_toNat (by decide) (by decide)]; omega),
    decode_ofNat rfl (by rw [encode, encodeRR_toNat (by decide) (by decide)]; omega),
    fun s => ⟨_, _, rfl, rfl, skipIf_beq_pc s _ _, skipIf_bne_pc s _ _, changesOnly_skipIf s _, changesOnly_skipIf s _⟩⟩

end Sys2Proof.Machine
end

section
/-! SUPPORT. What load, arithmetic, logic, shift and random leave of the state, and the flags and results as numbers (R170 to R183). -/

namespace Sys2Proof

/-- A word written out as an operation, a register and a byte. -/
theorem decode_ofNat_encodeRI {i : Instr} (hi : i.wellFormed = true) (op : Nat) {x : Reg} {nn : Byte}
    (he : encode i = encodeRI op x nn) (hop : op < 16 := by decide) :
    decode (BitVec.ofNat 16 (op * 0x1000 + 0x100 * x.val + nn.toNat)) = i :=
  decode_ofNat hi (by rw [he, encodeRI_toNat hop]; omega)

/-- A word written out as an operation with its low nibble and two registers. -/
theorem decode_ofNat_encodeRR {i : Instr} (hi : i.wellFormed = true) (op n : Nat) {x y : Reg}
    (he : encode i = encodeRR op x y n) (hop : op < 16 := by decide) (hn : n < 16 := by decide) :
    decode (BitVec.ofNat 16 (op * 0x1000 + n + 0x100 * x.val + 0x10 * y.val)) = i :=
  decode_ofNat hi (by rw [he, encodeRR_toNat hop hn]; omega)

end Sys2Proof

namespace Sys2Proof.Machine

/-! ## Frames -/

/-- A write of one register changes nothing else. -/
theorem changesOnly_setV (s : State) (x : Reg) (b : Byte) : ChangesOnly (fun p => p ∈ [Part.v x]) s (s.setV x b) := by
  intro p hp
  cases p with
  | v k =>
    have hk : k ≠ x := fun h => hp (by simp [h])
    exact (s.getV_setV x k b).trans (if_neg hk)
  | _ => simp [Part.Same]

/-- A flag and then a result change the two registers alone. -/
theorem changesOnly_setFlagThenV (s : State) (x : Reg) (b : Byte) (c : Bool) :
    ChangesOnly (fun p => p ∈ [Part.v x, Part.v vf]) s (s.setFlagThenV x b c) :=
  ((changesOnly_setV s vf (flagByte c)).mono (by simp)).trans ((changesOnly_setV _ x b).mono (by simp))

/-- A draw from the random source changes nothing else. -/
theorem changesOnly_drawRnd (s : State) : ChangesOnly (fun p => p ∈ [Part.rndInput]) s s.drawRnd := by
  intro p hp
  cases p <;> simp_all [Part.Same]

/-- The next listed byte is what the random source delivers (R58). -/
theorem rnd_of_rndInputs_eq_cons {s : State} {b : Byte} {rest : List Byte} (h : s.rndInputs = b :: rest) : s.rnd = b := by
  simp only [State.rnd, h]

/-! ## A flag and then a result (R170) -/

@[simp] theorem State.getV_setFlagThenV_same (s : State) (x : Reg) (b : Byte) (c : Bool) : (s.setFlagThenV x b c).getV x = b := by
  rw [getV_setFlagThenV, if_pos rfl]

/-- The flag remains where the result does not overwrite it. -/
theorem State.getV_setFlagThenV_vf (s : State) {x : Reg} (hx : x ≠ vf) (b : Byte) (c : Bool) :
    (s.setFlagThenV x b c).getV vf = flagByte c := by
  rw [getV_setFlagThenV, if_neg hx.symm, if_pos rfl]

/-! ## Flags and results as numbers -/

theorem flagByte_carryFlag (a b : Byte) : flagByte (carryFlag a b) = if 255 < a.toNat + b.toNat then 1 else 0 := by
  simp [flagByte, carryFlag]

theorem flagByte_noBorrowFlag (a b : Byte) : flagByte (noBorrowFlag a b) = if a.toNat < b.toNat then 0 else 1 := by
  simp only [flagByte, noBorrowFlag, decide_eq_true_eq, ← Nat.not_lt, ite_not]

/-- A flag as a number is its bit. -/
theorem flagByte_toNat (c : Bool) : (flagByte c).toNat = c.toNat := by cases c <;> rfl

theorem flagByte_lowBitFlag_toNat (a : Byte) : (flagByte (lowBitFlag a)).toNat = a.toNat % 2 := by
  rw [flagByte_toNat, lowBitFlag, BitVec.getLsbD, Nat.toNat_testBit, pow_zero, Nat.div_one]

theorem flagByte_highBitFlag_toNat (a : Byte) : (flagByte (highBitFlag a)).toNat = a.toNat / 128 := by
  have := a.isLt
  rw [flagByte_toNat, highBitFlag, BitVec.getLsbD, Nat.toNat_testBit]
  omega

/-- A difference of bytes is the difference of the integers modulo 256 (R183). -/
theorem toNat_sub_emod (a b : Byte) : ((a - b).toNat : Int) = (a.toNat - b.toNat : Int) % 256 := by
  have := b.isLt
  rw [BitVec.toNat_sub]
  omega

theorem toNat_shiftRight_one (a : Byte) : (a >>> 1).toNat = a.toNat / 2 := by
  rw [BitVec.toNat_ushiftRight, Nat.shiftRight_eq_div_pow, pow_one]

theorem toNat_shiftLeft_one (a : Byte) : (a <<< 1).toNat = a.toNat * 2 % 256 := by
  rw [BitVec.toNat_shiftLeft, Nat.shiftLeft_eq, pow_one]

/-- What a subtraction with its flag leaves: the difference, not-borrow where the difference is not in `VF`, and the rest (R178, R180). -/
theorem setFlagThenV_sub (s : State) (x : Reg) (a b : Byte) :
    (((s.setFlagThenV x (a - b) (noBorrowFlag a b)).getV x).toNat : Int) = (a.toNat - b.toNat : Int) % 256 ∧
    (x ≠ vf → (s.setFlagThenV x (a - b) (noBorrowFlag a b)).getV vf = if a.toNat < b.toNat then 0 else 1) ∧
    ChangesOnly (fun p => p ∈ [Part.v x, Part.v vf]) s (s.setFlagThenV x (a - b) (noBorrowFlag a b)) := by
  refine ⟨?_, fun hx => ?_, changesOnly_setFlagThenV s x _ _⟩
  · rw [State.getV_setFlagThenV_same, toNat_sub_emod]
  · rw [s.getV_setFlagThenV_vf hx, flagByte_noBorrowFlag]

end Sys2Proof.Machine
end

section
/-! PROOF. Load, arithmetic, logic, shift and random (R170 to R182). -/

namespace Sys2Proof.Machine

/-- Settles O7: a byte loaded, or added modulo 256. -/
theorem immediateLoadAndAddWriteOnlyTheRegister : Obligations.ImmediateLoadAndAddWriteOnlyTheRegister := fun x nn =>
  ⟨decode_ofNat_encodeRI rfl 0x6 rfl, decode_ofNat_encodeRI rfl 0x7 rfl,
    fun s => ⟨_, _, rfl, rfl, by rw [State.getV_setV_same], by rw [State.getV_setV_same, BitVec.toNat_add],
      changesOnly_setV s x _, changesOnly_setV s x _⟩⟩

/-- Settles O8: the register holds the value written, whose bits are the combined bits of the operands. -/
theorem copyAndLogicWriteOnlyTheDestination : Obligations.CopyAndLogicWriteOnlyTheDestination := by
  refine fun x y => ⟨decode_ofNat_encodeRR rfl 0x8 0x0 rfl, decode_ofNat_encodeRR rfl 0x8 0x1 rfl,
    decode_ofNat_encodeRR rfl 0x8 0x2 rfl, decode_ofNat_encodeRR rfl 0x8 0x3 rfl,
    fun s => ⟨⟨_, rfl, ?_, changesOnly_setV s x _⟩, ⟨_, rfl, fun j _ => ?_, changesOnly_setV s x _⟩,
      ⟨_, rfl, fun j _ => ?_, changesOnly_setV s x _⟩, ⟨_, rfl, fun j _ => ?_, changesOnly_setV s x _⟩⟩⟩
  · exact State.getV_setV_same s x _
  · rw [State.getV_setV_same, BitVec.getLsbD_or]
  · rw [State.getV_setV_same, BitVec.getLsbD_and]
  · rw [State.getV_setV_same, BitVec.getLsbD_xor]

/-- Settles O9: the sum is written after the carry, both from the old operands. -/
theorem addSetsCarryThenSum : Obligations.AddSetsCarryThenSum := by
  refine fun x y => ⟨decode_ofNat_encodeRR rfl 0x8 0x4 rfl,
    fun s => ⟨_, rfl, ?_, fun hx => ?_, changesOnly_setFlagThenV s x _ _⟩⟩
  · rw [State.getV_setFlagThenV_same, BitVec.toNat_add]
  · rw [s.getV_setFlagThenV_vf hx, flagByte_carryFlag]

/-- Settles O10: `8xy5` and `8xy7` are one subtraction, with the operands in either order. -/
theorem subtractionsSetNotBorrowThenDifference : Obligations.SubtractionsSetNotBorrowThenDifference := fun x y =>
  ⟨decode_ofNat_encodeRR rfl 0x8 0x5 rfl, decode_ofNat_encodeRR rfl 0x8 0x7 rfl,
    fun s => ⟨⟨_, rfl, setFlagThenV_sub s x (s.getV x) (s.getV y)⟩, ⟨_, rfl, setFlagThenV_sub s x (s.getV y) (s.getV x)⟩⟩⟩

/-- Settles O11: the shifted value is written after the bit shifted out, and `y` is not looked at. -/
theorem shiftsSetTheBitShiftedOut : Obligations.ShiftsSetTheBitShiftedOut := by
  refine fun x y => ⟨decode_ofNat_encodeRR rfl 0x8 0x6 rfl, decode_ofNat_encodeRR rfl 0x8 0xE rfl,
    fun s => ⟨⟨_, rfl, ?_, fun hx => ?_, changesOnly_setFlagThenV s x _ _⟩,
      ⟨_, rfl, ?_, fun hx => ?_, changesOnly_setFlagThenV s x _ _⟩⟩⟩
  · rw [State.getV_setFlagThenV_same, toNat_shiftRight_one]
  · rw [s.getV_setFlagThenV_vf hx, flagByte_lowBitFlag_toNat]
  · rw [State.getV_setFlagThenV_same, toNat_shiftLeft_one]
  · rw [s.getV_setFlagThenV_vf hx, flagByte_highBitFlag_toNat]

/-- Settles O12: the byte is taken from the source, and then the masked byte is written. -/
theorem randomMasksAndConsumesOneByte : Obligations.RandomMasksAndConsumesOneByte := fun x nn =>
  ⟨decode_ofNat_encodeRI rfl 0xC rfl,
    fun s => ⟨_, rfl, State.getV_setV_same _ x _, fun _ _ => rnd_of_rndInputs_eq_cons, rfl, rfl,
      ((changesOnly_drawRnd s).mono (by simp)).trans ((changesOnly_setV _ x _).mono (by simp))⟩⟩

end Sys2Proof.Machine
end

section
/-! SUPPORT. What the index loads, the stores at `I` and the block load leave of the state (R200 to R207). -/

namespace Sys2Proof

/-- A word written out as a number that holds the operation and the byte, plus a register. -/
theorem decode_ofNat_add_register {i : Instr} (hi : i.wellFormed = true) {op n : Nat} {x : Reg} {nn : Byte}
    (he : encode i = encodeRI op x nn) (hn : n = op * 0x1000 + nn.toNat) (hop : op < 16 := by decide) :
    decode (BitVec.ofNat 16 (n + 0x100 * x.val)) = i :=
  decode_ofNat hi (by rw [he, encodeRI_toNat hop, hn]; omega)

end Sys2Proof

namespace Sys2Proof.Machine

/-- A write of `I` changes nothing else. -/
theorem changesOnly_setIndex (s : State) (w : Word) : ChangesOnly (fun p => p ∈ [Part.index]) s (s.setIndex w) := by
  intro p hp
  cases p <;> simp_all [Part.Same]

/-- The sum of `Fx1E` as a number (R201). -/
theorem indexSum_toNat (i : Word) (b : Byte) : (indexSum i b).toNat = (i.toNat + b.toNat) % 65536 := by
  rw [indexSum, BitVec.toNat_add, BitVec.toNat_setWidth_of_le (by decide)]

/-- The address of a glyph as a number: no byte is large enough to make it wrap (R202). -/
theorem glyphAddress_toNat (b : Byte) : (glyphAddress b).toNat = 0x050 + 5 * b.toNat := by
  have := b.isLt
  rw [glyphAddress, BitVec.toNat_ofNat]
  omega

/-- Byte `k` of a store is read back at its own address. -/
theorem readMem_writeList_add (s : State) (base : Nat) {bytes : List Byte} {k : Nat} (hk : k < bytes.length) :
    State.readMem { s with mem := s.mem.writeList s.cfg base bytes } (base + k) = bytes.getD k 0 := by
  rw [readMem_writeList, if_pos (by omega), Nat.add_sub_cancel_left]

/-- A block of registers written changes nothing else. -/
theorem changesOnly_setVBlock (s : State) (x : Reg) (f : Reg → Byte) :
    ChangesOnly (fun p => ∃ k ≤ x, p = Part.v k) s (s.setVBlock x f) := by
  intro p hp
  cases p with
  | v k =>
    have hk : ¬k ≤ x := fun h => hp ⟨k, h, rfl⟩
    exact (s.getV_setVBlock x k f).trans (if_neg hk)
  | _ => simp [Part.Same]

/-- `Fx65` that leaves memory (R206). -/
theorem exec_ldVxMem_eq_fault {s : State} {x : Reg} (h : 0xFFF < s.index.toNat + x.val) :
    exec (.ldVxMem x) s = .fault (.addressOutOfRange (max s.index.toNat 0x1000)) :=
  have hrange := rangeFault_eq_some.mpr ⟨⟨x.val.succ_ne_zero, h⟩, rfl⟩
  exec_eq_fault.mpr (.inr (.inr ⟨_, hrange, .inr (.inr ⟨x, .inr rfl, rfl⟩)⟩))

end Sys2Proof.Machine
end

section
/-! PROOF. Index register, decimal store, block store and block load (R200 to R207). -/

namespace Sys2Proof.Machine

/-- Settles O13: neither address is too wide for `I`. -/
theorem indexLoadsSetTheIndex : Obligations.IndexLoadsSetTheIndex :=
  ⟨fun nnn => ⟨decode_ofNat rfl (encodeA_toNat (op := 0xA) (by decide) nnn).symm,
      fun s => ⟨_, rfl, BitVec.toNat_setWidth_of_le (by decide), changesOnly_setIndex s _⟩⟩,
    fun x => ⟨decode_ofNat_add_register rfl rfl rfl,
      fun s => ⟨_, rfl, glyphAddress_toNat (s.getV x), changesOnly_setIndex s _⟩⟩⟩

/-- Settles O14: the sum, at the width of `I`. -/
theorem addToIndexWrapsAtSixteenBits : Obligations.AddToIndexWrapsAtSixteenBits := fun x =>
  ⟨decode_ofNat_add_register rfl rfl rfl,
    fun s => ⟨_, rfl, indexSum_toNat s.index (s.getV x), changesOnly_setIndex s _⟩⟩

/-- Settles O15: a store of three bytes, the digits. -/
theorem decimalStoreWritesThreeDigits : Obligations.DecimalStoreWritesThreeDigits := by
  refine fun x => ⟨decode_ofNat_add_register rfl rfl rfl, fun s hin => ?_,
    fun s hi hout => faultsInExecution_of_exec hi (storeAtIndex_eq_fault (by simp) hout)⟩
  obtain ⟨hundreds, tens, ones⟩ := decimalDigits_getD_toNat (s.getV x)
  have hread (k : Nat) (hk : k < 3) := readMem_writeList_add s s.index.toNat (bytes := decimalDigits (s.getV x)) hk
  refine ⟨_, storeAtIndex_eq_next hin, ?_, ?_, ?_, (writeList_changesOnly s _ _).mono ?_⟩
  · exact (congrArg BitVec.toNat (hread 0 (by decide))).trans hundreds
  · exact (congrArg BitVec.toNat (hread 1 (by decide))).trans tens
  · exact (congrArg BitVec.toNat (hread 2 (by decide))).trans ones
  · rintro p ⟨k, hk, rfl⟩
    have : k = 0 ∨ k = 1 ∨ k = 2 := by rw [decimalDigits_length] at hk; omega
    rcases this with rfl | rfl | rfl <;> simp

/-- Settles O16: a store of the bytes of the block, one a register. -/
theorem blockStoreWritesTheRegisters : Obligations.BlockStoreWritesTheRegisters := by
  refine fun x => ⟨decode_ofNat_add_register rfl rfl rfl, fun s hin => ?_, fun s hi hout => ?_⟩
  · refine ⟨_, storeAtIndex_eq_next (by simpa using hin), fun k hk => ?_, (writeList_changesOnly s _ _).mono ?_⟩
    · rw [readMem_writeList_add s _ (by simpa using Nat.lt_succ_of_le hk), vBlock_getD s hk]
    · rintro p ⟨k, hk, rfl⟩
      rw [vBlock_length] at hk
      exact ⟨⟨k, by omega⟩, Nat.le_of_lt_succ hk, rfl⟩
  · exact faultsInExecution_of_exec hi (storeAtIndex_eq_fault (by simp) (by simpa using hout))

/-- Settles O17: register `k` takes byte `k` of what was read, and a range that leaves memory reads nothing. -/
theorem blockLoadReadsTheRegisters : Obligations.BlockLoadReadsTheRegisters := by
  refine fun x => ⟨decode_ofNat_add_register rfl rfl rfl, fun s hin => ?_,
    fun s hi hout => faultsInExecution_of_exec hi (exec_ldVxMem_eq_fault hout)⟩
  refine ⟨_, exec_ldVxMem_eq_next hin, fun k hk => ?_, changesOnly_setVBlock s x _⟩
  have hlt : k.val < x.val + 1 := Nat.lt_succ_of_le hk
  rw [State.getV_setVBlock, if_pos hk]
  simp [List.getD_eq_getElem?_getD, hlt]

/-- Settles O18 by O16 for the store and O17 for the load, which stays in memory because the store did. -/
theorem blockLoadRestoresWhatBlockStoreSaved : Obligations.BlockLoadRestoresWhatBlockStoreSaved := by
  intro x s t u w hstore hindex hbytes hload k hk
  obtain ⟨hroom, -⟩ := storeAtIndex_inv (by simp) hstore
  rw [vBlock_length] at hroom
  obtain ⟨-, hstores, -⟩ := blockStoreWritesTheRegisters x
  obtain ⟨t', ht', hsaved, hframe⟩ := hstores s (by omega)
  obtain ⟨-, hloads, -⟩ := blockLoadReadsTheRegisters x
  cases ht'.symm.trans hstore
  have hbase : t.index = s.index := hframe .index (by simp)
  obtain ⟨w', hw', hloaded, -⟩ := hloads u (by rw [hindex, hbase]; omega)
  cases hw'.symm.trans hload
  calc w.getV k = u.readMem (t.index.toNat + k.val) := hindex ▸ hloaded k hk
    _ = t.readMem (s.index.toNat + k.val) := hbase ▸ hbytes k hk
    _ = s.getV k := hsaved k hk

end Sys2Proof.Machine
end

section
/-! SUPPORT. The cells under a sprite, what drawing them does to the state, and the distinct cells of a wide framebuffer (R220
to R223). -/

namespace Sys2Proof.Machine

/-! ## Frames -/

/-- A framebuffer replaced changes pixels and nothing else. -/
theorem changesOnly_setFb (s : State) (fb : Framebuffer) :
    ChangesOnly (fun p => ∃ px py, p = Part.pixel px py) s (s.setFb fb) := by
  intro p hp
  cases p with
  | pixel px py => exact absurd ⟨px, py, rfl⟩ hp
  | _ => simp [Part.Same]

/-- The strobe of the display raised changes nothing else. -/
theorem changesOnly_markDispDirty (s : State) : ChangesOnly (fun p => p = Part.dispDirty) s s.markDispDirty := by
  intro p hp
  cases p <;> simp_all [Part.Same]

/-! ## Cells without repetition -/

namespace Framebuffer

/-- Cells named once each are toggled once each. -/
theorem lit_draw_of_nodup {ps : List Pixel} (h : ps.Nodup) (fb : Framebuffer) (q : Pixel) :
    (fb.draw ps).1.lit q = (fb.lit q ^^ decide (q ∈ ps)) := by
  rw [lit_draw, h.count]
  split_ifs with hq <;> simp [hq]

/-- With cells named once each, a cell is 1 at its turn exactly when it was 1 before the draw. -/
theorem draw_flag_of_nodup {ps : List Pixel} (h : ps.Nodup) (fb : Framebuffer) :
    (fb.draw ps).2 = true ↔ ∃ p ∈ ps, fb.lit p = true := by
  induction ps generalizing fb with
  | nil => simp
  | cons p ps ih =>
    obtain ⟨hp, hps⟩ := List.nodup_cons.mp h
    have hlater : ∀ q ∈ ps, (fb.toggle p).lit q = fb.lit q := fun q hq => by
      have hne : q ≠ p := fun e => hp (e ▸ hq)
      simp [lit_toggle, hne]
    rw [draw_cons, Bool.or_eq_true, ih hps, List.exists_mem_cons_iff]
    exact or_congr_right (exists_congr fun q => and_congr_right fun hq => by rw [hlater q hq])

end Framebuffer

/-! ## The cells under a sprite -/

/-- The cells under the 1 bits of the `n` bytes at `I`, in scan order, the left upper corner at `vx`, `vy` (R222). -/
def State.spriteCells (s : State) (vx vy n : Nat) : List Pixel :=
  (List.range n).flatMap (fun row => rowTargets s.cfg vx (vy + row) (s.readMem (s.index.toNat + row)))

/-- A cell of one row lies under one of its 1 bits. -/
theorem mem_rowTargets {c : Config} {vx y : Nat} {b : Byte} {p : Pixel} :
    p ∈ rowTargets c vx y b ↔ ∃ col < 8, b.getLsbD (7 - col) = true ∧ wrapPixel c (vx + col) y = p := by
  simp [rowTargets]

/-- The cells under a sprite are those its 1 bits lie on, row and column wrapped. -/
theorem mem_spriteCells {s : State} {vx vy n : Nat} {p : Pixel} : p ∈ s.spriteCells vx vy n ↔ ∃ row < n, ∃ col < 8,
    (s.readMem (s.index.toNat + row)).getLsbD (7 - col) = true ∧ wrapPixel s.cfg (vx + col) (vy + row) = p := by
  simp only [State.spriteCells, List.mem_flatMap, List.mem_range, mem_rowTargets]

/-- Some cell under the sprite has a property exactly when the cell under one of its 1 bits has. -/
theorem exists_mem_spriteCells {s : State} {vx vy n : Nat} {P : Pixel → Prop} :
    (∃ p ∈ s.spriteCells vx vy n, P p) ↔ ∃ row < n, ∃ col < 8,
      (s.readMem (s.index.toNat + row)).getLsbD (7 - col) = true ∧ P (wrapPixel s.cfg (vx + col) (vy + row)) := by
  constructor
  · rintro ⟨p, hmem, hp⟩
    obtain ⟨row, hrow, col, hcol, hbit, rfl⟩ := mem_spriteCells.mp hmem
    exact ⟨row, hrow, col, hcol, hbit, hp⟩
  · rintro ⟨row, hrow, col, hcol, hbit, hp⟩
    exact ⟨_, mem_spriteCells.mpr ⟨row, hrow, col, hcol, hbit, rfl⟩, hp⟩

/-- A cell under a sprite is named by its own coordinates: they are reduced already. -/
theorem getPixel_of_mem_spriteCells {s : State} {vx vy n : Nat} {p : Pixel} (hp : p ∈ s.spriteCells vx vy n) :
    s.getPixel p.1 p.2 = s.fb.lit p := by
  obtain ⟨row, -, col, -, -, rfl⟩ := mem_spriteCells.mp hp
  simp [State.getPixel, wrapPixel]

/-- Offsets inside the framebuffer reach distinct cells from any one corner, wrapped or not (R223). -/
theorem offsets_eq_of_wrapPixel_eq {c : Config} {vx vy col row col' row' : Nat}
    (hcol : col < c.fbWidth) (hcol' : col' < c.fbWidth) (hrow : row < c.fbHeight) (hrow' : row' < c.fbHeight)
    (h : wrapPixel c (vx + col) (vy + row) = wrapPixel c (vx + col') (vy + row')) : col = col' ∧ row = row' := by
  obtain ⟨hx, hy⟩ := (wrapPixel_eq_iff c _ _ _ _).mp h
  exact ⟨(Nat.ModEq.add_left_cancel' vx hx).eq_of_lt_of_lt hcol hcol',
    (Nat.ModEq.add_left_cancel' vy hy).eq_of_lt_of_lt hrow hrow'⟩

/-- On a framebuffer of at least 8 columns and `n` rows the cells under a sprite are distinct (R223). -/
theorem nodup_spriteCells {s : State} (vx vy : Nat) {n : Nat} (hw : 8 ≤ s.cfg.fbWidth) (hh : n ≤ s.cfg.fbHeight) :
    (s.spriteCells vx vy n).Nodup := by
  refine List.pairwise_flatMap.mpr ⟨fun row hrow => ?_, List.pairwise_lt_range.imp_of_mem fun {row row'} hrow hrow' hlt => ?_⟩
  · have hrow := List.mem_range.mp hrow
    refine List.pairwise_filterMap.mpr (List.pairwise_lt_range.imp_of_mem fun {col col'} hcol hcol' hlt p hp p' hp' heq => ?_)
    have hcol := List.mem_range.mp hcol
    have hcol' := List.mem_range.mp hcol'
    simp only [Option.ite_none_right_eq_some, Option.some.injEq] at hp hp'
    obtain ⟨-, rfl⟩ := hp
    obtain ⟨-, rfl⟩ := hp'
    obtain ⟨hsame, -⟩ := offsets_eq_of_wrapPixel_eq (by omega) (by omega) (by omega) (by omega) heq
    omega
  · have hrow := List.mem_range.mp hrow
    have hrow' := List.mem_range.mp hrow'
    intro p hp p' hp' heq
    obtain ⟨col, hcol, -, rfl⟩ := mem_rowTargets.mp hp
    obtain ⟨col', hcol', -, rfl⟩ := mem_rowTargets.mp hp'
    obtain ⟨-, hsame⟩ := offsets_eq_of_wrapPixel_eq (by omega) (by omega) (by omega) (by omega) heq
    omega

/-! ## The draw -/

/-- Cells drawn and the collision flag written: what a `Dxyn` that stays in memory does to the state (R222). -/
def State.drawCells (s : State) (ps : List Pixel) : State :=
  (s.setFb (s.fb.draw ps).1).setV vf (flagByte (s.fb.draw ps).2)

@[simp] theorem State.drawCells_cfg (s : State) (ps : List Pixel) : (s.drawCells ps).cfg = s.cfg := rfl
@[simp] theorem State.drawCells_fb (s : State) (ps : List Pixel) : (s.drawCells ps).fb = (s.fb.draw ps).1 := rfl

/-- A draw changes nothing that the cells under a sprite depend on. -/
@[simp] theorem State.drawCells_spriteCells (s : State) (ps : List Pixel) (vx vy n : Nat) :
    (s.drawCells ps).spriteCells vx vy n = s.spriteCells vx vy n := rfl

/-- A pixel after a draw: inverted once for each time its cell is drawn. -/
theorem getPixel_drawCells (s : State) (ps : List Pixel) (px py : Nat) : (s.drawCells ps).getPixel px py =
    (s.getPixel px py ^^ decide (ps.count (wrapPixel s.cfg px py) % 2 = 1)) :=
  Framebuffer.lit_draw ps s.fb _

/-- A flag written as a byte is 1 exactly when it is raised. -/
theorem flagByte_eq_one (c : Bool) : flagByte c = 1 ↔ c = true := by cases c <;> decide

/-- `VF` after a draw is the collision flag. -/
theorem getV_vf_drawCells (s : State) (ps : List Pixel) : (s.drawCells ps).getV vf = flagByte (s.fb.draw ps).2 :=
  State.getV_setV_same _ _ _

/-- A draw of cells named once each sets `VF` exactly when one of them was 1 (R223). -/
theorem getV_vf_drawCells_of_nodup {ps : List Pixel} (h : ps.Nodup) (s : State) :
    (s.drawCells ps).getV vf = 1 ↔ ∃ p ∈ ps, s.fb.lit p = true := by
  rw [getV_vf_drawCells, flagByte_eq_one, Framebuffer.draw_flag_of_nodup h]

/-- A draw changes `VF`, pixels and nothing else. -/
theorem changesOnly_drawCells (s : State) (ps : List Pixel) :
    ChangesOnly (fun p => p = Part.v vf ∨ ∃ px py, p = Part.pixel px py) s (s.drawCells ps) :=
  ((changesOnly_setFb s _).mono fun _ => .inr).trans ((changesOnly_setV _ vf _).mono (by simp))

/-- The same cells drawn again restore every pixel, distinct or not (R224). -/
theorem getPixel_drawCells_drawCells (s : State) (ps : List Pixel) (px py : Nat) :
    ((s.drawCells ps).drawCells ps).getPixel px py = s.getPixel px py := by
  rw [getPixel_drawCells, getPixel_drawCells, State.drawCells_cfg, Bool.xor_assoc, Bool.xor_self, Bool.xor_false]

/-- The same distinct cells drawn again set `VF` exactly when the first draw set one of them (R224). -/
theorem getV_vf_drawCells_drawCells_of_nodup {ps : List Pixel} (h : ps.Nodup) (s : State) :
    ((s.drawCells ps).drawCells ps).getV vf = 1 ↔ ∃ p ∈ ps, s.fb.lit p = false := by
  rw [getV_vf_drawCells_of_nodup h]
  refine exists_congr fun p => and_congr_right fun hp => ?_
  rw [State.drawCells_fb, Framebuffer.lit_draw_of_nodup h, decide_eq_true hp, Bool.xor_true, Bool.not_eq_true']

/-! ## The instruction -/

/-- `Dxyn` draws the cells under its sprite where the sprite stays in memory. -/
theorem exec_drw_eq_drawCells {s : State} {x y : Reg} {n : Fin 16} (h : n.val = 0 ∨ s.index.toNat + n.val - 1 ≤ 0xFFF) :
    exec (.drwVxVyN x y n) s = .next (s.drawCells (s.spriteCells (s.getV x).toNat (s.getV y).toNat n.val)) :=
  exec_drw_eq_next h

/-- After a draw, `Dxyn` at coordinates of before draws the cells it would have drawn before: a draw keeps `I` and memory. -/
theorem exec_drw_drawCells {s : State} {ps : List Pixel} {x y x' y' : Reg} {n : Fin 16}
    (h : n.val = 0 ∨ s.index.toNat + n.val - 1 ≤ 0xFFF)
    (hx : (s.drawCells ps).getV x' = s.getV x) (hy : (s.drawCells ps).getV y' = s.getV y) :
    exec (.drwVxVyN x' y' n) (s.drawCells ps) =
      .next ((s.drawCells ps).drawCells (s.spriteCells (s.getV x).toNat (s.getV y).toNat n.val)) := by
  rw [exec_drw_eq_drawCells (s := s.drawCells ps) h, hx, hy, State.drawCells_spriteCells]

/-- `Dxyn` whose sprite leaves memory (R221). -/
theorem exec_drw_eq_fault {s : State} {x y : Reg} {n : Fin 16} (h0 : n.val ≠ 0) (h : 0xFFF < s.index.toNat + n.val - 1) :
    exec (.drwVxVyN x y n) s = .fault (.addressOutOfRange (max s.index.toNat 0x1000)) :=
  have hrange : rangeFault s.base n.val = _ := rangeFault_eq_some.mpr ⟨⟨h0, by simp only [State.base]; omega⟩, rfl⟩
  exec_eq_fault.mpr (.inr (.inr ⟨_, hrange, .inl ⟨x, y, n, rfl, rfl⟩⟩))

/-- A `Dxyn` that completes stayed in memory. -/
theorem exec_drw_inv {s t : State} {x y : Reg} {n : Fin 16} (h : exec (.drwVxVyN x y n) s = .next t) :
    (n.val = 0 ∨ s.index.toNat + n.val - 1 ≤ 0xFFF) ∧
      t = s.drawCells (s.spriteCells (s.getV x).toNat (s.getV y).toNat n.val) := by
  by_cases hin : n.val = 0 ∨ s.index.toNat + n.val - 1 ≤ 0xFFF
  · cases (exec_drw_eq_drawCells hin).symm.trans h
    exact ⟨hin, rfl⟩
  · obtain ⟨h0, hout⟩ := not_or.mp hin
    cases (exec_drw_eq_fault h0 (Nat.not_le.mp hout)).symm.trans h

end Sys2Proof.Machine
end

section
/-! PROOF. Clear screen and the sprite draw: its scan, its cells on a wide framebuffer, and the collision law (R220 to R224). -/

namespace Sys2Proof.Machine

/-- Settles O21: the listed cells are drawn in turn, and a sprite that leaves memory fails the range check. -/
theorem drawTogglesTheCellsOfTheScan : Obligations.DrawTogglesTheCellsOfTheScan := by
  refine fun x y n => ⟨decode_ofNat rfl (by rw [encode, encodeRR_toNat (by decide) n.isLt]; omega), fun s hin => ?_,
    fun s hi h0 hout => faultsInExecution_of_exec hi (exec_drw_eq_fault h0 hout)⟩
  intro hits
  have hhits : hits = s.spriteCells (s.getV x).toNat (s.getV y).toNat n.val := rfl
  refine ⟨s.drawCells hits, exec_drw_eq_drawCells hin, getPixel_drawCells s hits, ?_, ?_, changesOnly_drawCells s hits⟩
  · rw [getV_vf_drawCells]
    cases (s.fb.draw hits).2
    · exact .inl rfl
    · exact .inr rfl
  · rw [getV_vf_drawCells, flagByte_eq_one, Framebuffer.draw_flag]
    refine exists_congr fun pre => exists_congr fun p => exists_congr fun post => and_congr_right fun hsplit => ?_
    have hp : p ∈ s.spriteCells (s.getV x).toNat (s.getV y).toNat n.val := by simp [← hhits, hsplit]
    rw [getPixel_of_mem_spriteCells hp]

/-- Settles O22: the cells under the sprite are distinct, so each is drawn once and is at its turn what it was before. -/
theorem drawOnAWideFramebufferIsOneXor : Obligations.DrawOnAWideFramebufferIsOneXor := by
  intro x y n s t hw hh hst
  obtain ⟨-, rfl⟩ := exec_drw_inv hst
  have hdistinct := nodup_spriteCells (s := s) (s.getV x).toNat (s.getV y).toNat hw hh
  refine ⟨fun px py => ?_, (getV_vf_drawCells_of_nodup hdistinct s).trans exists_mem_spriteCells⟩
  have hpixel := Framebuffer.lit_draw_of_nodup hdistinct s.fb (wrapPixel s.cfg px py)
  have hflip (b c : Bool) : (b ^^ c) ≠ b ↔ c = true := by cases b <;> cases c <;> decide
  simp only [State.getPixel, State.drawCells_cfg, State.drawCells_fb, hpixel, hflip, decide_eq_true_eq, mem_spriteCells,
    wrapPixel_eq_iff]

/-- Settles O23: the first draw leaves what the second one depends on, so both draw the same distinct cells. -/
theorem drawingTwiceRestoresTheFramebuffer : Obligations.DrawingTwiceRestoresTheFramebuffer := by
  intro x y x' y' n s t hw hh hst hx hy
  obtain ⟨hin, rfl⟩ := exec_drw_inv hst
  have hdistinct := nodup_spriteCells (s := s) (s.getV x).toNat (s.getV y).toNat hw hh
  exact ⟨_, exec_drw_drawCells hin hx hy, getPixel_drawCells_drawCells s _,
    (getV_vf_drawCells_drawCells_of_nodup hdistinct s).trans exists_mem_spriteCells⟩

/-- Settles O20: the cleared framebuffer and then the strobe. -/
theorem clearScreenZeroesEveryPixel : Obligations.ClearScreenZeroesEveryPixel :=
  ⟨rfl, fun s => ⟨_, rfl, s.getPixel_clearFb, rfl,
    ((changesOnly_setFb s []).mono fun _ => .inr).trans ((changesOnly_markDispDirty _).mono fun _ => .inl)⟩⟩

end Sys2Proof.Machine
end

section
/-! SUPPORT. The key levels and the least key, what the timer writes leave of the state, and a Step that waits for a key (R57, R240
to R247). -/

namespace Sys2Proof.Machine

/-- The next listed vector is what the host presents (R57). -/
theorem keys_of_keyInputs_eq_cons {s : State} {k : Word} {rest : List Word} (h : s.keyInputs = k :: rest) : s.keys = k := by
  simp only [State.keys, h]

/-- A key is pressed where the whole register value is the number of a key that is down (R242). -/
theorem pressed_iff (keys : Word) (k : Byte) : pressed keys k = true ↔ k.toNat ≤ 15 ∧ keys.getLsbD k.toNat = true := by
  rw [pressed, Bool.and_eq_true, decide_eq_true_eq, Nat.lt_succ_iff]

/-- A write of the delay timer changes nothing else. -/
theorem changesOnly_setDt (s : State) (b : Byte) : ChangesOnly (fun p => p ∈ [Part.dt]) s (s.setDt b) := by
  intro p hp
  cases p <;> simp_all [Part.Same]

/-- A write of the sound timer changes nothing else. -/
theorem changesOnly_setSt (s : State) (b : Byte) : ChangesOnly (fun p => p ∈ [Part.st]) s (s.setSt b) := by
  intro p hp
  cases p <;> simp_all [Part.Same]

/-- A Step that executes no `Fx15` counts the delay timer down (R135, R247). -/
theorem dt_of_step {s t : State} (hst : step s = .next t) (hno : ∀ y, ¬Executes s (.ldDtVx y)) :
    t.dt.toNat = s.dt.toNat - 1 := by
  obtain ⟨w, m, hf, he, rfl⟩ := step_eq_next.mp hst
  obtain ⟨-, -, -, -, -, hdt, -⟩ := specialStateIsWrittenOnlyByItsInstructions _ _ _ he
  rcases hdt with hdt | ⟨y, hy⟩
  · rw [State.complete_dt, tickDown_toNat, hdt, State.advance_dt]
  · exact absurd ⟨w, hf, hy⟩ (hno y)

/-- The Step of an `Fx07` reads the timer before its own tick (R244). -/
theorem step_of_executes_ldVxDt {s : State} {x : Reg} (hi : Executes s (.ldVxDt x)) :
    step s = .next (s.advance.setV x s.dt).complete := step_of_executes hi

/-- The Step of an `Fx15` ticks the timer it has set (R245). -/
theorem step_of_executes_ldDtVx {s : State} {x : Reg} (hi : Executes s (.ldDtVx x)) :
    step s = .next (s.advance.setDt (s.getV x)).complete := step_of_executes hi

/-- The Step of an `Fx18` ticks the timer it has set (R246). -/
theorem step_of_executes_ldStVx {s : State} {x : Reg} (hi : Executes s (.ldStVx x)) :
    step s = .next (s.advance.setSt (s.getV x)).complete := step_of_executes hi

/-- `Fx0A` with no key down (R243). -/
theorem exec_ldVxK_eq_rearm {s : State} (x : Reg) (h : s.keys = 0) : exec (.ldVxK x) s = .next s.rearm := by
  simp only [exec, execLdVxK, (lowestKey_eq_none s.keys).mpr h]

/-- `Fx0A` with a key down stores the least one (R243). -/
theorem exec_ldVxK_eq_setV {s : State} (x : Reg) (h : s.keys ≠ 0) : ∃ b : Byte, exec (.ldVxK x) s = .next (s.setV x b) ∧
    b.toNat ≤ 15 ∧ s.keys.getLsbD b.toNat = true ∧ ∀ j < b.toNat, s.keys.getLsbD j = false := by
  cases hk : lowestKey s.keys with
  | none => exact absurd ((lowestKey_eq_none s.keys).mp hk) h
  | some b =>
    obtain ⟨hlt, hdown, hleast⟩ := (lowestKey_eq_some s.keys b).mp hk
    exact ⟨b, by simp only [exec, execLdVxK, hk], Nat.le_of_lt_succ hlt, hdown, hleast⟩

/-- The re-arm takes the advance of `pc` back (R133, R243). -/
theorem rearm_advance (s : State) : s.advance.rearm = s.advance.setPc s.pc := by
  rw [State.rearm, State.advance_pc, BitVec.add_sub_cancel]

/-- The Step of an `Fx0A` with no key down puts `pc` back and completes. -/
theorem step_of_wait {s : State} {x : Reg} (hi : Executes s (.ldVxK x)) (hk : s.keys = 0) :
    step s = .next (s.advance.setPc s.pc).complete := by
  rw [step_of_executes hi, exec_ldVxK_eq_rearm x (s := s.advance) hk, rearm_advance, finishStep]

/-- With `pc` put back, the same instruction executes next. -/
theorem executes_setPc_complete {s : State} {i : Instr} (hi : Executes s i) :
    Executes (s.advance.setPc s.pc).complete i := by
  obtain ⟨w, hf, hd⟩ := hi
  exact ⟨w, (complete_fetch _).trans hf, hd⟩

/-- Through listed vectors with no key down `Fx0A` stays the next instruction, and only the timers, the count and the Step's own
inputs and strobes move (R243, R322). -/
theorem run_of_wait {j : Nat} {x : Reg} {s : State} {ks : List Word} (hi : Executes s (.ldVxK x))
    (hks : s.keyInputs = List.replicate j 0 ++ ks) : ∃ t : State, core.run j s = .next t ∧ Executes t (.ldVxK x) ∧
      t.keyInputs = ks ∧ t.dt.toNat = s.dt.toNat - j ∧ t.st.toNat = s.st.toNat - j ∧
      ChangesOnly (fun p => p ∈ [.dt, .st, .icount, .keyInput, .dispDirty, .undefOp]) s t := by
  induction j generalizing s with
  | zero => exact ⟨s, rfl, hi, hks, rfl, rfl, ChangesOnly.refl _ s⟩
  | succ j ih =>
    have hstep := step_of_wait hi (keys_of_keyInputs_eq_cons hks)
    have hrest : (s.advance.setPc s.pc).complete.keyInputs = List.replicate j 0 ++ ks := congrArg List.tail hks
    obtain ⟨t, hrun, ht, hkt, hdt, hst, hframe⟩ := ih (executes_setPc_complete hi) hrest
    refine ⟨t, run_succ_eq_next.mpr ⟨_, hstep, hrun⟩, ht, hkt, ?_, ?_, (changesOnly_setPc_complete s).trans hframe⟩
    · rw [hdt, State.complete_dt, tickDown_toNat, State.setPc_dt, State.advance_dt, Nat.sub_sub, Nat.add_comm]
    · rw [hst, State.complete_st, tickDown_toNat, State.setPc_st, State.advance_st, Nat.sub_sub, Nat.add_comm]

end Sys2Proof.Machine
end

section
/-! PROOF. Key skips, key wait and timers (R240 to R247, R322). -/

namespace Sys2Proof.Machine

/-- The delay timer of a run that begins with `Fx15` and executes no other one, by induction on the Steps after it, the last one
taken off. -/
theorem dt_of_run_of_executes_ldDtVx {j : Nat} {x : Reg} {s t : State} (hi : Executes s (.ldDtVx x))
    (hrun : core.run (j + 1) s = .next t)
    (hno : ∀ k u, 1 ≤ k → k ≤ j → core.run k s = .next u → ∀ y, ¬Executes u (.ldDtVx y)) :
    t.dt.toNat = (s.getV x).toNat - (j + 1) := by
  induction j generalizing t with
  | zero =>
    obtain ⟨u, hu, hst⟩ := run_succ_eq_next_last.mp hrun
    cases hu
    cases (step_of_executes_ldDtVx hi).symm.trans hst
    exact tickDown_toNat (s.getV x)
  | succ j ih =>
    obtain ⟨u, hu, hst⟩ := run_succ_eq_next_last.mp hrun
    have hbefore := ih hu fun k v h1 hk => hno k v h1 (Nat.le_succ_of_le hk)
    rw [dt_of_step hst (hno (j + 1) u (Nat.succ_pos j) le_rfl hu), hbefore, Nat.sub_sub]

/-- Settles O56: every Step after the `Fx15` counts down, and an `Fx07` reads what the run has left. -/
theorem delayTimerCountsSteps : Obligations.DelayTimerCountsSteps := by
  intro j x s t hi hrun hno
  have hdt := dt_of_run_of_executes_ldDtVx hi hrun hno
  exact ⟨hdt, fun y hy => ⟨_, step_of_executes_ldVxDt hy, by rw [State.complete_getV, State.getV_setV_same, hdt]⟩⟩

/-- Settles O57: the waiting Steps as one run, and the Step with a key down as the other case of the instruction. -/
theorem keyWaitLastsUntilAKeyIsDown : Obligations.KeyWaitLastsUntilAKeyIsDown := by
  intro j x s k rest hi hks hk
  obtain ⟨t, hrun, ht, hkt, hdt, hst, hframe⟩ := run_of_wait hi hks
  have hpc : t.pc = s.pc := hframe .pc (by simp)
  have hkeys : t.advance.keys = k := keys_of_keyInputs_eq_cons hkt
  obtain ⟨b, hexec, -, hdown, hleast⟩ := exec_ldVxK_eq_setV x (hkeys.symm ▸ hk)
  rw [hkeys] at hdown hleast
  refine ⟨t, (t.advance.setV x b).complete, hrun, hpc, hdt, hst, hframe, by rw [step_of_executes ht, hexec, finishStep], ?_, ?_⟩
  · rw [State.complete_pc, State.setV_pc, State.advance_pc, hpc]
  · rw [State.complete_getV, State.getV_setV_same]
    exact ⟨hdown, hleast⟩

/-- Settles O25: one test of the register's key, on which `Ex9E` and `ExA1` skip in opposite cases. -/
theorem keySkipsTestTheKeyOfTheRegister : Obligations.KeySkipsTestTheKeyOfTheRegister := by
  refine fun x => ⟨decode_ofNat_add_register rfl rfl rfl, decode_ofNat_add_register rfl rfl rfl,
    fun s => ⟨fun _ _ => keys_of_keyInputs_eq_cons, _, _, rfl, rfl, ?_, ?_, changesOnly_skipIf s _, changesOnly_skipIf s _⟩⟩
  · simp only [State.skipIf_pc, pressed_iff]
  · simp only [State.skipIf_pc, Bool.not_eq_true', ← Bool.not_eq_true, pressed_iff, ite_not]

/-- Settles O26: the re-arm where the vector is 0, and the write of the least key where it is not. -/
theorem keyWaitRearmsOrStoresTheLeastKey : Obligations.KeyWaitRearmsOrStoresTheLeastKey := by
  refine fun x => ⟨decode_ofNat_add_register rfl rfl rfl, fun s =>
    ⟨fun hk => ⟨_, exec_ldVxK_eq_rearm x hk, rfl, changesOnly_setPc s _⟩, fun hk => ?_⟩⟩
  obtain ⟨b, hexec, hle, hdown, hleast⟩ := exec_ldVxK_eq_setV x hk
  refine ⟨_, hexec, ?_⟩
  rw [State.getV_setV_same]
  exact ⟨hle, hdown, hleast, changesOnly_setV s x b⟩

/-- Settles O27: each instruction is one write, and its Step ticks the timers as that write left them. -/
theorem timerAccessAndTheTickOfTheSameStep : Obligations.TimerAccessAndTheTickOfTheSameStep := fun x =>
  ⟨decode_ofNat_add_register rfl rfl rfl, decode_ofNat_add_register rfl rfl rfl, decode_ofNat_add_register rfl rfl rfl,
    fun s => ⟨⟨_, rfl, State.getV_setV_same s x _, changesOnly_setV s x _⟩, ⟨_, rfl, rfl, changesOnly_setDt s _⟩,
      ⟨_, rfl, rfl, changesOnly_setSt s _⟩⟩,
    fun s hi => ⟨_, step_of_executes_ldVxDt hi, State.getV_setV_same s.advance x _, tickDown_toNat s.dt⟩,
    fun s hi => ⟨_, step_of_executes_ldDtVx hi, tickDown_toNat (s.getV x)⟩,
    fun s hi => ⟨_, step_of_executes_ldStVx hi, tickDown_toNat (s.getV x)⟩⟩

end Sys2Proof.Machine
end

section
/-! PROOF. The no-op of an undefined word: the strobe it raises and its Step, phase by phase (R260). -/

namespace Sys2Proof.Machine

/-- Raising the strobe changes nothing else. -/
theorem changesOnly_markUndefOp (s : State) : ChangesOnly (fun p => p ∈ [Part.undefOp]) s s.markUndefOp := by
  intro p hp
  cases p <;> simp_all [Part.Same]

/-- Before dispatch a Step moves `pc` and lowers the strobes (R59, R133). -/
theorem changesOnly_advance (s : State) : ChangesOnly (fun p => p ∈ [Part.pc, Part.dispDirty, Part.undefOp]) s s.advance := by
  intro p hp
  cases p <;> simp_all [Part.Same]

/-- After dispatch a Step moves the timers and the counter and uses its key sample (R135, R136). -/
theorem changesOnly_complete (s : State) :
    ChangesOnly (fun p => p ∈ [Part.dt, Part.st, Part.icount, Part.keyInput]) s s.complete := by
  intro p hp
  cases p <;> simp_all [Part.Same]

/-- The Step of a no-op raises the strobe between the advance and the completion. -/
theorem step_of_executes_nop {s : State} {w : Word} (hi : Executes s (.nop w)) :
    step s = .next s.advance.markUndefOp.complete := step_of_executes hi

/-- The frame of a no-op's Step is what its three phases may change. -/
theorem changesOnly_nop_step (s : State) :
    ChangesOnly (fun p => p ∈ [Part.pc, Part.dt, Part.st, Part.icount, Part.keyInput, Part.undefOp, Part.dispDirty]) s
      s.advance.markUndefOp.complete :=
  ((changesOnly_advance s).mono (by simp)).trans
    (((changesOnly_markUndefOp s.advance).mono (by simp)).trans
      ((changesOnly_complete s.advance.markUndefOp).mono (by simp)))

/-- Settles O28: an undefined word decodes to the no-op, and the Step that fetches it is the Step of the no-op. -/
theorem undefinedWordsAreNoOps : Obligations.UndefinedWordsAreNoOps := by
  refine ⟨fun _ => decode_of_not_isDefinedWord, fun w s => ⟨s.markUndefOp, rfl, rfl, changesOnly_markUndefOp s⟩,
    fun w s hw hf => ?_⟩
  have hi : Executes s (.nop w) := ⟨w, hf, decode_of_not_isDefinedWord hw⟩
  exact ⟨_, step_of_executes_nop hi, rfl, tickDown_toNat s.dt, tickDown_toNat s.st, rfl, rfl, rfl, changesOnly_nop_step s⟩

end Sys2Proof.Machine
end

section
/-! SUPPORT. Every way a Step can end, said once (R270 to R275): it never refuses, and each of its faults has its conditions. -/

namespace Sys2Proof.Machine

@[simp] theorem State.advance_base (s : State) : s.advance.base = s.base := rfl
@[simp] theorem State.advance_stackFull (s : State) : s.advance.stackFull = s.stackFull := rfl

/-- Every instruction has a meaning, so none is refused (R134). -/
theorem exec_ne_refused (i : Instr) (s : State) (r : Refusal) : exec i s ≠ .refused r := by
  intro h
  cases i
  case ret =>
    rcases pop_cases s with ⟨w, rest, -, e⟩ | ⟨-, e⟩ <;> simp [exec, execRet, e, raise] at h
  case callNnn nnn =>
    rcases push_cases s s.pc with ⟨-, e⟩ | ⟨-, e⟩ <;> simp [exec, execCallNnn, e, raise] at h
  case drwVxVyN x y n =>
    rcases loadBytes_cases s s.base n.val with ⟨-, e⟩ | ⟨f, -, e⟩ <;> simp [exec, execDrwVxVyN, e, raise] at h
  case ldBVx x =>
    rcases storeAtIndex_cases s (decimalDigits (s.getV x)) with ⟨-, e⟩ | ⟨f, -, e⟩ <;> cases e.symm.trans h
  case ldMemVx x =>
    rcases storeAtIndex_cases s (s.vBlock x) with ⟨-, e⟩ | ⟨f, -, e⟩ <;> cases e.symm.trans h
  case ldVxMem x =>
    rcases loadBytes_cases s s.base (x.val + 1) with ⟨-, e⟩ | ⟨f, -, e⟩ <;> simp [exec, execLdVxMem, e, raise] at h
  -- every other meaning answers a next state in one case
  all_goals cases h

/-- No Step is refused (R139). -/
theorem step_ne_refused (s : State) (r : Refusal) : step s ≠ .refused r := by
  intro h
  obtain ⟨w, -, he⟩ := step_eq_refused.mp h
  exact exec_ne_refused _ _ r he

/-- The next Step executes an instruction whose bytes at `I` do not all lie in memory, the conditions (b) to (d) of R271. -/
def AccessLeavesMemory (s : State) : Prop :=
  (∃ x y n, Executes s (.drwVxVyN x y n) ∧ 1 ≤ n.val ∧ 0xFFF < s.index.toNat + n.val - 1) ∨
  (∃ x, Executes s (.ldBVx x) ∧ 0xFFF < s.index.toNat + 2) ∨
  (∃ x, (Executes s (.ldMemVx x) ∨ Executes s (.ldVxMem x)) ∧ 0xFFF < s.index.toNat + x.val)

/-- The fetch faults exactly when one of its two bytes lies outside memory (R131). -/
theorem fetch_eq_error {s : State} {f : Fault} :
    s.fetch = .error f ↔ 0xFFF ≤ s.pc.toNat ∧ f = .addressOutOfRange (max s.pc.toNat 0x1000) := by
  rcases fetch_cases s with ⟨hin, e⟩ | ⟨hout, e⟩
  · simp only [e, reduceCtorEq, false_iff]; omega
  · simp only [e, Except.error.injEq, hout, true_and, eq_comm]

/-- Some bytes of the instruction that is executed fail their range check exactly when its access leaves memory. -/
theorem executes_rangeFault_iff_accessLeavesMemory {s : State} {f : Fault} :
    (∃ i, Executes s i ∧ ∃ len, rangeFault s.base len = some f ∧ ((∃ x y n, i = .drwVxVyN x y n ∧ len = n.val) ∨
      (∃ x, i = .ldBVx x ∧ len = 3) ∨ (∃ x, (i = .ldMemVx x ∨ i = .ldVxMem x) ∧ len = x.val + 1))) ↔
    AccessLeavesMemory s ∧ f = .addressOutOfRange (max s.index.toNat 0x1000) := by
  simp only [rangeFault_eq_some, State.base]
  constructor
  · rintro ⟨i, hi, len, ⟨⟨h0, hout⟩, rfl⟩, ⟨x, y, n, rfl, rfl⟩ | ⟨x, rfl, rfl⟩ | ⟨x, rfl | rfl, rfl⟩⟩
    · exact ⟨.inl ⟨x, y, n, hi, by omega, by omega⟩, rfl⟩
    · exact ⟨.inr (.inl ⟨x, hi, hout⟩), rfl⟩
    · exact ⟨.inr (.inr ⟨x, .inl hi, hout⟩), rfl⟩
    · exact ⟨.inr (.inr ⟨x, .inr hi, hout⟩), rfl⟩
  · rintro ⟨⟨x, y, n, hi, h0, hout⟩ | ⟨x, hi, hout⟩ | ⟨x, hi | hi, hout⟩, rfl⟩
    · exact ⟨_, hi, n.val, ⟨⟨by omega, by omega⟩, rfl⟩, .inl ⟨x, y, n, rfl, rfl⟩⟩
    · exact ⟨_, hi, 3, ⟨⟨by omega, hout⟩, rfl⟩, .inr (.inl ⟨x, rfl, rfl⟩)⟩
    · exact ⟨_, hi, x.val + 1, ⟨⟨by omega, hout⟩, rfl⟩, .inr (.inr ⟨x, .inl rfl, rfl⟩)⟩
    · exact ⟨_, hi, x.val + 1, ⟨⟨by omega, hout⟩, rfl⟩, .inr (.inr ⟨x, .inr rfl, rfl⟩)⟩

/-- A Step that faults did so in the fetch or in the instruction it executes. -/
theorem step_eq_fault_iff_executes {s : State} {f : Fault} : step s = .fault f ↔
    s.fetch = .error f ∨ ∃ i, Executes s i ∧ exec i s.advance = .fault f := by
  simp only [step_eq_fault, Executes]
  refine or_congr_right ⟨?_, ?_⟩
  · rintro ⟨w, hf, he⟩
    exact ⟨_, ⟨w, hf, rfl⟩, he⟩
  · rintro ⟨_, ⟨w, hf, rfl⟩, he⟩
    exact ⟨w, hf, he⟩

/-- Every way a Step can fault, with what it reports (R271 to R273). -/
theorem step_eq_fault_iff {s : State} {f : Fault} : step s = .fault f ↔
    (0xFFF ≤ s.pc.toNat ∧ f = .addressOutOfRange (max s.pc.toNat 0x1000)) ∨
    (AccessLeavesMemory s ∧ f = .addressOutOfRange (max s.index.toNat 0x1000)) ∨
    (Executes s .ret ∧ s.sp = 0 ∧ f = .stackUnderflow) ∨
    (∃ nnn, Executes s (.callNnn nnn) ∧ s.stackFull = true ∧ f = .stackOverflow) := by
  rw [step_eq_fault_iff_executes, fetch_eq_error, ← executes_rangeFault_iff_accessLeavesMemory]
  simp only [exec_eq_fault, State.advance_base, State.advance_stackFull, State.advance_sp]
  refine or_congr_right ⟨?_, ?_⟩
  · rintro ⟨i, hi, ⟨rfl, h⟩ | ⟨⟨nnn, rfl⟩, h⟩ | h⟩
    · exact .inr (.inl ⟨hi, h⟩)
    · exact .inr (.inr ⟨nnn, hi, h⟩)
    · exact .inl ⟨i, hi, h⟩
  · rintro (⟨i, hi, h⟩ | ⟨hi, h⟩ | ⟨nnn, hi, h⟩)
    · exact ⟨i, hi, .inr (.inr h)⟩
    · exact ⟨_, hi, .inl ⟨rfl, h⟩⟩
    · exact ⟨_, hi, .inr (.inl ⟨⟨nnn, rfl⟩, h⟩)⟩

/-- A stack within its depth is full exactly when the depth is its pointer (R50, R51). -/
theorem stackFull_iff_of_within_depth {s : State} (h : ∀ d, s.cfg.stackDepth = some d → s.sp ≤ d) :
    s.stackFull = true ↔ s.cfg.stackDepth = some s.sp := by
  rw [stackFull_iff]
  constructor
  · rintro ⟨d, hd, hle⟩
    rw [hd, Nat.le_antisymm (h d hd) hle]
  · exact fun hd => ⟨s.sp, hd, Nat.le_refl _⟩

/-- A cell outside the font table that nothing has written holds `MEM_FILL` (R62; log 6). -/
theorem unlisted_of_not_font (c : Config) {a : Nat} (h : a < 0x050 ∨ 0x0A0 ≤ a) : Memory.unlisted c a = c.memFill :=
  dif_neg (by omega)

end Sys2Proof.Machine
end

section
/-! PROOF. The exceptions of a Step and their codes (R270 to R275), and the values that the spec itself chose for reset (R311). -/

namespace Sys2Proof.Machine

/-- Settles O39: a Step is not refused, and each of its faults is one of three kinds. -/
theorem stepNeverRefuses : Obligations.StepNeverRefuses := by
  intro s
  cases hst : step s with
  | next t => exact .inl ⟨t, rfl⟩
  | fault f =>
    rcases step_eq_fault_iff.mp hst with ⟨-, rfl⟩ | ⟨-, rfl⟩ | ⟨-, -, rfl⟩ | ⟨_, -, -, rfl⟩
    · exact .inr (.inl ⟨_, Nat.le_max_right _ _, rfl⟩)
    · exact .inr (.inl ⟨_, Nat.le_max_right _ _, rfl⟩)
    · exact .inr (.inr (.inl rfl))
    · exact .inr (.inr (.inr rfl))
  | refused r => exact absurd hst (step_ne_refused s r)

/-- Settles O40: of the ways a Step can fault, the fetch and the access at `I` are those that report an address. -/
theorem addressFaultsExactlyWhenAnAccessLeavesMemory : Obligations.AddressFaultsExactlyWhenAnAccessLeavesMemory := by
  intro s
  change _ ↔ 0xFFF ≤ s.pc.toNat ∨ AccessLeavesMemory s
  constructor
  · rintro ⟨a, hst⟩
    rcases step_eq_fault_iff.mp hst with ⟨hpc, -⟩ | ⟨hout, -⟩ | ⟨-, -, hf⟩ | ⟨_, -, -, hf⟩
    · exact .inl hpc
    · exact .inr hout
    · cases hf
    · cases hf
  · rintro (hpc | hout)
    · exact ⟨_, step_eq_fault_iff.mpr (.inl ⟨hpc, rfl⟩)⟩
    · exact ⟨_, step_eq_fault_iff.mpr (.inr (.inl ⟨hout, rfl⟩))⟩

/-- Settles O41: each stack fault is one of the ways a Step can fault, and the premise makes the depth the pointer of a full stack. -/
theorem stackFaultsExactlyOnEmptyOrFullStack : Obligations.StackFaultsExactlyOnEmptyOrFullStack := by
  refine ⟨rfl, fun s hdepth => ⟨?_, ?_⟩⟩
  · simp [step_eq_fault_iff]
  · simp [step_eq_fault_iff, stackFull_iff_of_within_depth hdepth]

/-- Settles O59: the code tells the kinds of result apart, and O39 says which of them a Step has. -/
theorem resultsHaveTheirCodes : Obligations.ResultsHaveTheirCodes := by
  refine ⟨fun r => ?_, fun s => ?_, fun bytes s => ?_⟩
  · rcases r with t | f | r
    · simp [resultCode]
    · cases f <;> simp [resultCode, faultCode]
    · simp [resultCode]
  · rcases stepNeverRefuses s with ⟨t, h⟩ | ⟨a, -, h⟩ | h | h
    · exact ⟨0, by decide, by rw [h]; rfl, by simp [h]⟩
    · exact ⟨1, by decide, by rw [h]; rfl, by simp [h]⟩
    · exact ⟨2, by decide, by rw [h]; rfl, by simp [h]⟩
    · exact ⟨3, by decide, by rw [h]; rfl, by simp [h]⟩
  · obtain ⟨hshort, hlong⟩ := loadProgramCopiesTheImage bytes s
    split_ifs with hlen
    · obtain ⟨t, h, -⟩ := hshort hlen
      rw [h]; rfl
    · obtain ⟨h, -⟩ := hlong (Nat.lt_of_not_le hlen)
      rw [h]; rfl

/-- Settles O50: reset lists no lit pixel and no memory cell, so a cell outside the font table reads as the parameter. -/
theorem resetHoldsTheDecidedValues : Obligations.ResetHoldsTheDecidedValues :=
  ⟨fun c => ⟨rfl, rfl, rfl, rfl, rfl, fun _ _ => rfl, fun _ h => unlisted_of_not_font c h⟩, rfl, rfl, rfl, rfl⟩

end Sys2Proof.Machine
end
